-- ==== Sys2Proof/Word.lean ====
section
/-! DEFINITION. The plain data types of the block: bytes, the 16-bit length field, byte sequences, the registry map
(00_scope.md R9, 10_state.md R23, R29). -/
namespace Sys2Proof

/-- A byte: 8 bits, an unsigned value 0..255 (R9). -/
abbrev Byte := BitVec 8

/-- A 16-bit unsigned value: the length field (R70) and the consumed count (R26). -/
abbrev Half := BitVec 16

/-- A byte sequence; offset 0 is the byte that arrived first or is sent first (R9). -/
abbrev Bytes := List Byte

/-- The 256 bits of the Message Type Registry, bit t for type byte t (R29). -/
abbrev RegMap := BitVec 256

end Sys2Proof
end

