-- ==== Sys2Proof/Config.lean ====
section
/-! DEFINITION. The constants the source fixes (00_scope.md R5, R6, R8) and the configuration record of a block
(R7, R32, R187). The configuration holds the parameters the spec leaves open; it is fixed for a run and no step writes it. -/
namespace Sys2Proof

/-- HEADER_LEN: the size of the header and the least legal length field, the one constant of R6. -/
@[simp] abbrev headerLen : Nat := 19
/-- MARKER_LEN (R5). -/
@[simp] abbrev markerLen : Nat := 16
/-- MARKER_BYTE (R5). -/
def markerByte : Byte := 0xFF
/-- MARKER: sixteen bytes 0xFF (R5). -/
def marker : Bytes := List.replicate markerLen markerByte
/-- LEN_OFF (R5). -/
@[simp] abbrev lenOff : Nat := 16
/-- TYPE_OFF (R5). -/
@[simp] abbrev typeOff : Nat := 18
/-- BODY_OFF (R5). -/
@[simp] abbrev bodyOff : Nat := 19
/-- MAX_LEN (R5). -/
@[simp] abbrev maxLen : Nat := 4096
/-- The greatest value of the 16-bit length field (R8). -/
@[simp] abbrev fieldMax : Nat := 65535

/-- T_NIL (R5): not a message type. -/
@[simp] abbrev tNil : Byte := 0
/-- T_OPEN (R5). -/
@[simp] abbrev tOpen : Byte := 1
/-- T_UPDATE (R5). -/
@[simp] abbrev tUpdate : Byte := 2
/-- T_NOTIFICATION (R5). -/
@[simp] abbrev tNotification : Byte := 3
/-- T_KEEPALIVE (R5). -/
@[simp] abbrev tKeepalive : Byte := 4

/-- The open parameters of a block (R7). LEN_LIMIT is derived, so it is no field. -/
structure Config where
  /-- ENFORCE_MAX: a length field above MAX_LEN is malformed. -/
  enforceMax : Bool
  /-- BUFCAP: the capacity of RXBUF in bytes. -/
  bufCap : Nat
  /-- W_POS: the width of POS in bits. -/
  wPos : Nat
  /-- REG_RESET: the set of type bytes registered after reset, as a map. -/
  regReset : RegMap
deriving DecidableEq, Repr

/-- LEN_LIMIT (R7): MAX_LEN if ENFORCE_MAX, else 65535. -/
def Config.lenLimit (c : Config) : Nat := if c.enforceMax then maxLen else fieldMax

/-- The constraints an integrator must meet (R7, R187): BUFCAP >= LEN_LIMIT, W_POS >= 16, 0 not in REG_RESET. -/
abbrev Config.Wf (c : Config) : Prop :=
  c.lenLimit ≤ c.bufCap ∧ 16 ≤ c.wPos ∧ c.regReset.getLsbD 0 = false

/-- The spec's recommended values (R7): ENFORCE_MAX true, BUFCAP = LEN_LIMIT = 4096, W_POS 64, REG_RESET {1, 2, 3, 4}.
DESIGN CHOICE (log entry 1): the configuration that `State.reset` carries. -/
def Config.recommended : Config :=
  { enforceMax := true, bufCap := 4096, wPos := 64, regReset := 0x1e#256 }

end Sys2Proof
end

