-- ==== Sys2Proof/Syntax.lean ====
section
/-! DEFINITION. The values of the wire format (Header, Message), the instructions (one constructor per row of
spec/opcode_table.json), and what stands at the block's inputs: a transaction of the command port, an input of the host. -/
namespace Sys2Proof

/-- The Header value {length, type}: the marker is verified and not part of it (R12, R23). -/
structure Header where
  length : Half
  type : Byte
deriving DecidableEq, Repr

/-- The Message value {type, length, payload} (R111). -/
structure Message where
  type : Byte
  length : Half
  payload : Bytes
deriving DecidableEq, Repr

/-- The tag of a Message, the source's variants (R111). -/
inductive Tag where
  | openTag
  | updateTag
  | notificationTag
  | keepAliveTag
  | unknownTag
deriving DecidableEq, Repr

/-- One constructor per row of spec/opcode_table.json. A message row carries what its header leaves free: the length field,
and the type byte where the row does not fix it. A command row carries the command's operands (R82). -/
inductive Instr where
  /-- OPEN: good marker, type byte 1 (R113). -/
  | openMsg (length : Half)
  /-- UPDATE: good marker, type byte 2 (R114). -/
  | updateMsg (length : Half)
  /-- NOTIFICATION: good marker, type byte 3 (R115). -/
  | notificationMsg (length : Half)
  /-- KEEPALIVE: good marker, type byte 4 (R116). -/
  | keepaliveMsg (length : Half)
  /-- UNRECOGNIZED: good marker, a type byte that is not registered (R77). -/
  | unrecognized (t : Byte) (length : Half)
  /-- REGISTERED_OTHER: good marker, a registered type byte outside 1..4 (R117). -/
  | registeredOther (t : Byte) (length : Half)
  /-- REGISTER_TYPE t, CMD 0x1 (R140). -/
  | registerType (t : Byte)
  /-- SEAL, CMD 0x2 (R141). -/
  | sealRegistry
  /-- APPEND data, CMD 0x3 (R118). -/
  | append (data : Bytes)
  /-- PEEK, CMD 0x4 (R96). -/
  | peek
  /-- FRAME, CMD 0x5 (R119). -/
  | frame
  /-- ADVANCE, CMD 0x6 (R120). -/
  | advance
  /-- ENCODE T, body, CMD 0x7 (R95). -/
  | encode (t : Byte) (body : Bytes)
deriving DecidableEq, Repr

/-- One transaction of the command port: the 4-bit CMD (R82) with an operand line for a type byte and one for a byte
sequence. A command reads the lines R82 gives it as operands and no other. DESIGN CHOICE (log entry 4): R82 gives no layout of
the operands. -/
structure PortWord where
  cmd : BitVec 4
  typeLine : Byte
  dataLine : Bytes
deriving DecidableEq, Repr

/-- What the host can do to the block: issue a command or assert reset (R20, R142). -/
inductive HostInput where
  | command (w : PortWord)
  | reset
deriving DecidableEq, Repr

/-- An encoded instruction: the bytes at the front of the receive buffer, or a transaction of the command port. The two
are the two spaces of spec/opcode_table.json. -/
inductive Code where
  | header (bytes : Bytes)
  | command (w : PortWord)
deriving DecidableEq, Repr

/-- Why a code is no instruction. -/
inductive DecodeError where
  /-- Fewer than 19 bytes: no header yet (R92 step 1). -/
  | shortHeader
  /-- A marker byte differs from 0xFF (R78). -/
  | illegalMarker
  /-- CMD is 0x0 or 0x8..0xF (R83). -/
  | reservedCommand
deriving DecidableEq, Repr

end Sys2Proof
end

