-- ==== Sys2Proof/Machine/Registry.lean ====
section
/-! DEFINITION. The Message Type Registry as a value: lookup (42_registry_system.md R144), adding a type (R140), the
contents after reset (R142). REG_MAP[0] is hardwired to 0 (10_state.md R29): lookup answers false for type 0 and adding type 0
adds nothing. With it stands the range check of the length field (30_encoding.md R79). -/
namespace Sys2Proof

/-- `registered(REG, t)`: the bit REG[t], with REG[0] = 0 always (R144, R29). -/
def registered (reg : RegMap) (t : Byte) : Bool :=
  t != tNil && reg.getLsbD t.toNat

/-- REG_MAP with bit t set (R140); bit 0 is hardwired and takes no write (R29). -/
def addType (reg : RegMap) (t : Byte) : RegMap :=
  if t = tNil then reg else reg ||| BitVec.twoPow 256 t.toNat

/-- The registry after reset: bit t set exactly for t in REG_RESET, bit 0 clear (R142). -/
def resetRegistry (c : Config) : RegMap :=
  c.regReset &&& ~~~(BitVec.twoPow 256 0)

/-- A length field the framer accepts: HEADER_LEN <= length <= LEN_LIMIT (R79). -/
def lengthLegal (limit : Nat) (length : Half) : Bool :=
  decide (headerLen ≤ length.toNat) && decide (length.toNat ≤ limit)

end Sys2Proof
end

