-- ==== Sys2Proof/WellFormed.lean ====
section
/-! DEFINITION. When an instruction is well-formed: the row it names is the row its type byte and the registry select
(30_encoding.md R76, R77; opcode_table.json notes), and its length field is in range (R79). -/
namespace Sys2Proof

/-- The row of a message instruction is the one its type byte selects under the registry `reg` (R76, R77, R117). Every
command is its own row. -/
def Instr.rowFits (reg : RegMap) : Instr → Bool
  | .openMsg _ => registered reg tOpen
  | .updateMsg _ => registered reg tUpdate
  | .notificationMsg _ => registered reg tNotification
  | .keepaliveMsg _ => registered reg tKeepalive
  | .unrecognized t _ => !registered reg t
  | .registeredOther t _ => registered reg t && decide (5 ≤ t.toNat)
  | .registerType _ => true
  | .sealRegistry => true
  | .append _ => true
  | .peek => true
  | .frame => true
  | .advance => true
  | .encode _ _ => true

/-- The length field of a message instruction is in range (R79); a command has none. -/
def Instr.lengthFits (limit : Nat) : Instr → Bool
  | .openMsg length => lengthLegal limit length
  | .updateMsg length => lengthLegal limit length
  | .notificationMsg length => lengthLegal limit length
  | .keepaliveMsg length => lengthLegal limit length
  | .unrecognized _ length => lengthLegal limit length
  | .registeredOther _ length => lengthLegal limit length
  | .registerType _ => true
  | .sealRegistry => true
  | .append _ => true
  | .peek => true
  | .frame => true
  | .advance => true
  | .encode _ _ => true

/-- Well-formed under a length limit and a registry: well-framed, in the words of R77, with the row the registry selects. -/
def Instr.wellFormed (limit : Nat) (reg : RegMap) (i : Instr) : Bool :=
  i.rowFits reg && i.lengthFits limit

end Sys2Proof
end

