-- ==== Sys2Proof/Decode.lean ====
section
/-! DEFINITION. The encodings: byte order (20_memory.md R50), the header codec's decode_header (40_header_codec.md R92), the
selection of a message row (30_encoding.md R76, R77), the command codes (R82, R83), and the encoder written from the same tables.
`decode` is total and refuses by name. -/
namespace Sys2Proof

/-- `be16(b0, b1)` = b0 * 256 + b1 (R10, R72). -/
def be16 (b0 b1 : Byte) : Half := BitVec.ofNat 16 (b0.toNat * 256 + b1.toNat)

/-- `hi8(v)` = v[15:8] (R10). -/
def hi8 (v : Half) : Byte := v.extractLsb' 8 8

/-- `lo8(v)` = v[7:0] (R10). -/
def lo8 (v : Half) : Byte := v.extractLsb' 0 8

/-- The three outcomes of decode_header (R92): `None`, `Some(Header)`, InvalidMarker. -/
inductive HeaderOutcome where
  | incomplete
  | header (h : Header)
  | invalidMarker
deriving DecidableEq, Repr

/-- `decode_header(buf)` (R92). The length test comes first; bytes from offset 19 on are ignored; length and type are taken as
they stand. -/
def decodeHeader (buf : Bytes) : HeaderOutcome :=
  if short : buf.length < headerLen then .incomplete
  else if buf.take markerLen ≠ marker then .invalidMarker
  else
    have h19 : 19 ≤ buf.length := Nat.le_of_not_lt short
    .header { length := be16 (buf[16]'(by omega)) (buf[17]'(by omega)), type := buf[18]'(by omega) }

/-- The 19 header bytes of a Header: marker, length big-endian, type (R70, R72). -/
def headerBytes (h : Header) : Bytes :=
  marker ++ [hi8 h.length, lo8 h.length, h.type]

/-- The number H of R71: the header bytes read with the byte at offset 0 most significant. -/
def headerNumber (bytes : Bytes) : Nat :=
  bytes.foldl (fun acc b => acc * 256 + b.toNat) 0

/-- The row of opcode_table.json a header belongs to under a registry: an unregistered type is UNRECOGNIZED, a registered
one its named row or REGISTERED_OTHER (R76, R77, R117). -/
def messageRow (reg : RegMap) (h : Header) : Instr :=
  if registered reg h.type then
    if h.type = tOpen then .openMsg h.length
    else if h.type = tUpdate then .updateMsg h.length
    else if h.type = tNotification then .notificationMsg h.length
    else if h.type = tKeepalive then .keepaliveMsg h.length
    else .registeredOther h.type h.length
  else .unrecognized h.type h.length

/-- Decoding the message at the front of a buffer (R70 to R79). An illegal length is not refused here: the instruction's
meaning takes the stream fault that R163 describes. -/
def decodeMessage (reg : RegMap) (bytes : Bytes) : Except DecodeError Instr :=
  match decodeHeader bytes with
  | .incomplete => .error .shortHeader
  | .invalidMarker => .error .illegalMarker
  | .header h => .ok (messageRow reg h)

/-- Decoding a transaction of the command port (R82, R83). -/
def decodeCommand (w : PortWord) : Except DecodeError Instr :=
  if w.cmd = 0x1#4 then .ok (.registerType w.typeLine)
  else if w.cmd = 0x2#4 then .ok .sealRegistry
  else if w.cmd = 0x3#4 then .ok (.append w.dataLine)
  else if w.cmd = 0x4#4 then .ok .peek
  else if w.cmd = 0x5#4 then .ok .frame
  else if w.cmd = 0x6#4 then .ok .advance
  else if w.cmd = 0x7#4 then .ok (.encode w.typeLine w.dataLine)
  else .error .reservedCommand

/-- Decoding, total on any code; the registry decides between the message rows (R76, R77). -/
def decode (reg : RegMap) : Code → Except DecodeError Instr
  | .header bytes => decodeMessage reg bytes
  | .command w => decodeCommand w

/-- The code of an instruction (R70, R76, R82). A line of the port that the command does not read is zero or empty. -/
def encode : Instr → Code
  | .openMsg length => .header (headerBytes ⟨length, tOpen⟩)
  | .updateMsg length => .header (headerBytes ⟨length, tUpdate⟩)
  | .notificationMsg length => .header (headerBytes ⟨length, tNotification⟩)
  | .keepaliveMsg length => .header (headerBytes ⟨length, tKeepalive⟩)
  | .unrecognized t length => .header (headerBytes ⟨length, t⟩)
  | .registeredOther t length => .header (headerBytes ⟨length, t⟩)
  | .registerType t => .command ⟨0x1, t, []⟩
  | .sealRegistry => .command ⟨0x2, 0, []⟩
  | .append data => .command ⟨0x3, 0, data⟩
  | .peek => .command ⟨0x4, 0, []⟩
  | .frame => .command ⟨0x5, 0, []⟩
  | .advance => .command ⟨0x6, 0, []⟩
  | .encode t body => .command ⟨0x7, t, body⟩

/-- The n bytes of a number, most significant first: the wire order of R71. -/
def bytesOfNumber : Nat → Nat → Bytes
  | 0, _ => []
  | n + 1, w => BitVec.ofNat 8 (w >>> (8 * n)) :: bytesOfNumber n w

/-- The number of bits of a header, R71. -/
def headerBits : Nat := 152

/-- The code of a word of spec/opcode_table.json: a 152-bit word is a header H, byte 0 most significant (R71); a word of one
byte or less whose value fits 4 bits is a CMD with operand lines of zero (R82). -/
def codeOfTableWord (nbits w : Nat) : Option Code :=
  if nbits = headerBits then some (.header (bytesOfNumber headerLen w))
  else if nbits ≤ 8 ∧ w < 16 then some (.command ⟨BitVec.ofNat 4 w, 0, []⟩)
  else none

/-- The instruction a word of spec/opcode_table.json decodes to under the registry of the recommended reset (R29, R37): the
words of UNRECOGNIZED and REGISTERED_OTHER are the same, and with REG_RESET = {1, 2, 3, 4} they are UNRECOGNIZED. -/
def decodeTableWord (nbits w : Nat) : Option Instr :=
  match codeOfTableWord nbits w with
  | none => none
  | some code =>
    match decode (resetRegistry Config.recommended) code with
    | .ok i => some i
    | .error _ => none

end Sys2Proof
end

