-- ==== Sys2Proof/Machine/State.lean ====
section
/-! DEFINITION. The state of the block as plain data (10_state.md section 3), the responses of its command port (30_encoding.md
R84), the reasons a step can stop, and the state after reset (R37). -/
namespace Sys2Proof.Machine

/-- PHASE, the registry life-cycle bit: 0 = INIT, 1 = RUN (R28). -/
inductive Phase where
  | init
  | run
deriving DecidableEq, Repr

/-- The values of the register FAULT: 0 = NONE, 1 = INVALID_MARKER, 2 = INVALID_LENGTH (R30). -/
inductive FaultReg where
  | noFault
  | invalidMarker
  | invalidLength
deriving DecidableEq, Repr

/-- One Result of the framer (R25): NEED_MORE with consumed 0, SKIP(n), MSG(m, n). The payload of a message is held by value
(R26). -/
inductive Result where
  | needMore
  | skip (n : Half)
  | msg (m : Message) (n : Half)
deriving DecidableEq, Repr

/-- RSP (R84): 0 = DONE, 1 = REFUSED, 2 = FAULTED. -/
inductive Rsp where
  | done
  | refused
  | faulted
deriving DecidableEq, Repr

/-- The answer of the encode port (R84, R95): ENC_STATUS OK with the bytes, or an error with no bytes at all. -/
inductive EncodeAnswer where
  | ok (out : Bytes)
  | invalidMessageType
  | invalidLength
deriving DecidableEq, Repr

/-- The response payload column of R82: none, HDR for PEEK, HDR and RES for FRAME, ENC_STATUS and out for ENCODE. -/
inductive Payload where
  | empty
  | header (hdr : Option Header)
  | framed (hdr : Option Header) (res : Option Result)
  | encoded (answer : EncodeAnswer)
deriving DecidableEq, Repr

/-- The response of one command (R84). -/
structure Response where
  rsp : Rsp
  payload : Payload
deriving DecidableEq, Repr

/-- The state of the block, with the block's configuration and its command port. -/
structure State where
  /-- The configuration (R32): no step writes it, reset does not change it (log entry 1). -/
  cfg : Config
  /-- RXBUF (R21): the bytes received and not yet consumed, `rxbuf[0]` the oldest, at stream position POS. RXLEN is its
  length (R22). -/
  rxbuf : Bytes
  /-- HDR (R23): empty, or a Header. Empty holds no length and no type. -/
  hdr : Option Header
  /-- POS (R24), the stream position: a W_POS-bit counter, W_POS being configuration (log entry 6). -/
  pos : Nat
  /-- RES (R25): empty, or a Result. -/
  res : Option Result
  /-- PHASE (R28). -/
  phase : Phase
  /-- REG_MAP (R29), read and written through `registered` and `addType`. -/
  regMap : RegMap
  /-- FAULT (R30). -/
  fault : FaultReg
  /-- FAULT_POS (R31): no value while FAULT = NONE. -/
  faultPos : Option Nat
  /-- The model's own field: the host's inputs not yet taken, the next one first (R20, R60; log entry 2). -/
  port : List HostInput
  /-- The model's own field: the response of the last command since reset (R84; log entry 3). -/
  rsp : Option Response
deriving DecidableEq, Repr

/-- Why the machine stops with a fault. A stream fault of the spec is none of these: it is latched in FAULT and the block goes
on (R168). -/
inductive Fault where
  /-- Raised by ADVANCE when RES.consumed exceeds RXLEN: the slice RXBUF[n : RXLEN] is then not defined (R9), and the spec
  gives no other effect. No run reaches such a state (R120's invariant). Safe. -/
  | sliceOutOfRange
deriving DecidableEq, Repr

/-- Why the model gives an instruction no meaning in a state. A refusal of the spec is none of these: it is the response
REFUSED (R173). -/
inductive Refusal where
  /-- Raised by an arm of `exec` whose instruction has no meaning yet. Safe. -/
  | notModelled (mnemonic : String)
  /-- Raised by a message instruction run on a receive buffer that does not begin with its header: the source gives a
  decoder no behaviour on a frame whose type or length does not match (R112, U6). No step reaches it. Safe. -/
  | messageNotAtFront
  /-- Raised where `decode_stub`'s precondition is false (R112, U6, D21). No step reaches it. Safe. -/
  | stubPrecondition
deriving DecidableEq, Repr

/-- The state after reset of a block with configuration `c`, with the host inputs `port` still to come (R37, R142). -/
def State.atReset (c : Config) (port : List HostInput) : State :=
  { cfg := c
    rxbuf := []
    hdr := none
    pos := 0
    res := none
    phase := .init
    regMap := resetRegistry c
    fault := .noFault
    faultPos := none
    port := port
    rsp := none }

/-- The machine right after reset (R37), with the spec's recommended configuration (R7, log entry 1) and no input of the host
(log entry 2). -/
def State.reset : State := State.atReset Config.recommended []

end Sys2Proof.Machine
end

