-- ==== Sys2Proof/Machine/Operands.lean ====
section
/-! DEFINITION. The access shapes of the receive space (20_memory.md R54, 00_scope.md R10): a byte, MemRead, MemSlice, MemWrite,
dropping from the front. RXBUF is a byte sequence whose addresses are its offsets; an offset at or above RXLEN holds no
byte. -/
namespace Sys2Proof.Machine

/-- The byte at offset `a`, or nothing where RXBUF has none (R10, R21). -/
def readByte (buf : Bytes) (a : Nat) : Option Byte := buf[a]?

/-- `MemRead(addr, n)` (R10): n bytes composed big-endian; defined only when addr + n <= RXLEN. -/
def memRead (buf : Bytes) (addr n : Nat) : Option Nat :=
  if addr + n ≤ buf.length then some (headerNumber ((buf.drop addr).take n)) else none

/-- The slice `buf[a:b]` (R9); defined only when a <= b <= |buf|. -/
def slice (buf : Bytes) (a b : Nat) : Option Bytes :=
  if a ≤ b ∧ b ≤ buf.length then some ((buf.take b).drop a) else none

/-- `MemWrite(RXLEN, n, v)` (R10): the one store, at the tail. -/
def memWrite (buf v : Bytes) : Bytes := buf ++ v

/-- The receive buffer as pairs of address and byte, addresses strictly rising (R21, R35). -/
def Memory.cells (buf : Bytes) : List Host.Cell := buf.zipIdx.map fun p => (p.2, p.1)

/-- The one form of a receive buffer: it fits its capacity, RXLEN <= BUFCAP (R21). A byte list has no other way to hold the same
contents. -/
abbrev Memory.wf (cap : Nat) (buf : Bytes) : Prop := buf.length ≤ cap

end Sys2Proof.Machine
end

