-- ==== Sys2Proof/Machine/Codec.lean ====
section
/-! DEFINITION. The pure functions of layer S (00_scope.md R11): encode_header (40_header_codec.md R90), encode (R93), decode_stub
(41_framer.md R112), read_message (R110). decode_header stands in Decode. None of them touches the state. -/
namespace Sys2Proof

/-- The outcomes of encode_header: the bytes of the whole message, or one of two exceptions (R90). -/
inductive EncodeOutcome where
  | bytes (out : Bytes)
  | invalidMessageType
  | invalidLength (total : Nat)
deriving DecidableEq, Repr

/-- `encode_header(T, body)` (R90): T = 0 is tested first, then the exact total against LEN_LIMIT; nothing wraps (R91). -/
def encodeHeader (limit : Nat) (t : Byte) (body : Bytes) : EncodeOutcome :=
  let total := body.length + headerLen
  if t = tNil then .invalidMessageType
  else if limit < total then .invalidLength total
  else .bytes (headerBytes ⟨BitVec.ofNat 16 total, t⟩ ++ body)

/-- `encode(message)` (R93): the carried length is not used. -/
def encodeMessage (limit : Nat) (m : Message) : EncodeOutcome := encodeHeader limit m.type m.payload

/-- `decode_stub(T, frame)` (R112): the decoder every registered type uses. `none` says that the precondition is false, where the
source gives no behaviour (U6). -/
def decodeStub (t : Byte) (frame : Bytes) : Option Message :=
  match decodeHeader frame with
  | .header h =>
    if h.type = t ∧ frame.length = h.length.toNat then
      (Machine.slice frame bodyOff h.length.toNat).map fun payload => ⟨t, h.length, payload⟩
    else none
  | .incomplete => none
  | .invalidMarker => none

/-- The outcomes of read_message (R110): the source's pair (Option Message, consumed), one of two exceptions, or a false
precondition of the decoder (R112), which R110 step 6 never meets. -/
inductive ReadOutcome where
  | returns (m : Option Message) (consumed : Half)
  | invalidMarker
  | invalidLength (length : Half)
  | stubMismatch
deriving DecidableEq, Repr

/-- `read_message(REG, buf)` (R110), its six steps in their order (R167). -/
def readMessage (limit : Nat) (reg : RegMap) (buf : Bytes) : ReadOutcome :=
  if buf.length < headerLen then .returns none 0
  else
    match decodeHeader (buf.take headerLen) with
    | .incomplete => .returns none 0
    | .invalidMarker => .invalidMarker
    | .header h =>
      if lengthLegal limit h.length = false then .invalidLength h.length
      else if buf.length < h.length.toNat then .returns none 0
      else if registered reg h.type = false then .returns none h.length
      else
        match decodeStub h.type (buf.take h.length.toNat) with
        | some m => .returns (some m) h.length
        | none => .stubMismatch

end Sys2Proof
end

