-- ==== Sys2Proof/Machine/Flags.lean ====
section
/-! DEFINITION. The status outputs and the hardware fields of the latches, all functions of the state (10_state.md R23, R26,
R27, R30), with the numeric codes of the spec (R26, R28, R30, R84). A field of an invalid latch holds no value (U14). -/
namespace Sys2Proof.Machine

/-- HDR_VALID (R23, R27). -/
def hdrValid (s : State) : Bool := s.hdr.isSome
/-- RES_VALID (R25, R27). -/
def resValid (s : State) : Bool := s.res.isSome
/-- FAULT_LINE = (FAULT != NONE) (R27, R30). -/
def faultLine (s : State) : Bool := s.fault != .noFault
/-- RX_READY = (FAULT = NONE and RXLEN < BUFCAP) (R27). -/
def rxReady (s : State) : Bool := s.fault == .noFault && decide (s.rxbuf.length < s.cfg.bufCap)

/-- HDR_LENGTH: no value when HDR_VALID = 0 (R23). -/
def hdrLength (s : State) : Option Half := s.hdr.map Header.length
/-- HDR_TYPE: no value when HDR_VALID = 0 (R23). -/
def hdrType (s : State) : Option Byte := s.hdr.map Header.type

/-- The consumed count of a Result (R25). -/
def consumed : Result → Half
  | .needMore => 0
  | .skip n => n
  | .msg _ n => n

/-- The code RES_KIND of a Result (R26). -/
def kindCode : Result → BitVec 2
  | .needMore => 0
  | .skip _ => 1
  | .msg _ _ => 2

/-- The Message of a Result, only a MSG has one (R25). -/
def resultMessage : Result → Option Message
  | .needMore => none
  | .skip _ => none
  | .msg m _ => some m

/-- RES_KIND: no value when RES_VALID = 0 (R26). -/
def resKind (s : State) : Option (BitVec 2) := s.res.map kindCode
/-- RES_CONSUMED: no value when RES_VALID = 0 (R26). -/
def resConsumed (s : State) : Option Half := s.res.map consumed
/-- RES_TYPE: valid only when RES_KIND = MSG (R26). -/
def resType (s : State) : Option Byte := (s.res.bind resultMessage).map Message.type
/-- RES_LENGTH: valid only when RES_KIND = MSG (R26). -/
def resLength (s : State) : Option Half := (s.res.bind resultMessage).map Message.length
/-- The payload of a MSG result, by value (R26). -/
def resPayload (s : State) : Option Bytes := (s.res.bind resultMessage).map Message.payload

/-- The code of PHASE (R28). -/
def phaseCode : Phase → BitVec 1
  | .init => 0
  | .run => 1

/-- The code of FAULT (R30). -/
def faultCode : FaultReg → BitVec 2
  | .noFault => 0
  | .invalidMarker => 1
  | .invalidLength => 2

/-- The code of RSP (R84). -/
def rspCode : Rsp → BitVec 2
  | .done => 0
  | .refused => 1
  | .faulted => 2

/-- ENC_STATUS (R84). -/
def encStatus : EncodeAnswer → BitVec 2
  | .ok _ => 0
  | .invalidMessageType => 1
  | .invalidLength => 2

/-- The tag of a Message, a function of its type alone (R111). -/
def tagOf (m : Message) : Tag :=
  if m.type = tOpen then .openTag
  else if m.type = tUpdate then .updateTag
  else if m.type = tNotification then .notificationTag
  else if m.type = tKeepalive then .keepAliveTag
  else .unknownTag

/-- A well-formed Message: length = |payload| + 19 and HEADER_LEN <= length <= LEN_LIMIT (R111). -/
def messageWf (limit : Nat) (m : Message) : Bool :=
  decide (m.length.toNat = m.payload.length + headerLen) && lengthLegal limit m.length

end Sys2Proof.Machine
end

