-- ==== Sys2Proof/Machine/Ops.lean ====
section
/-! DEFINITION. The named operations on the state: the response of a command (30_encoding.md R84), the writes of the latches, of
RXBUF, of the registry and of the phase, entering a stream fault (60_exceptions.md R168) and beside it the reset input, its only exit
(42_registry_system.md R142, R171); running the framer and latching its outcome (41_framer.md R119); running one framed message
(R113 to R117). -/
namespace Sys2Proof.Machine

/-- The three outcomes of a step, with this machine's types. -/
abbrev StepOutcome := Host.Outcome State Fault Refusal

/-- The response of a command (R84): it completes the transaction, so the command leaves the port (R60). -/
def State.respond (s : State) (r : Rsp) (p : Payload) : State :=
  { s with port := s.port.tail, rsp := some ⟨r, p⟩ }

/-- The response of PEEK, whose payload is HDR (R82). -/
def State.respondPeek (s : State) (r : Rsp) : State := s.respond r (.header s.hdr)

/-- The response of FRAME, whose payload is HDR and RES (R82). -/
def State.respondFrame (s : State) (r : Rsp) : State := s.respond r (.framed s.hdr s.res)

/-- HDR is written (R96). -/
def State.latchHeader (s : State) (h : Option Header) : State := { s with hdr := h }

/-- HDR and RES are written (R119). -/
def State.latchFrame (s : State) (h : Option Header) (r : Option Result) : State := { s with hdr := h, res := r }

/-- Bytes are added at the tail of RXBUF (R118). -/
def State.appendBytes (s : State) (data : Bytes) : State := { s with rxbuf := memWrite s.rxbuf data }

/-- `pc + n` modulo 2^W_POS (R24, R91). -/
def advancePos (c : Config) (pos n : Nat) : Nat := (pos + n) % 2 ^ c.wPos

/-- n bytes are consumed: dropped from the front of RXBUF, POS moved by n, both latches emptied (R120). -/
def State.consume (s : State) (rest : Bytes) (n : Nat) : State :=
  { s with rxbuf := rest, pos := advancePos s.cfg s.pos n, res := none, hdr := none }

/-- REG_MAP[t] <- 1 (R140). -/
def State.register (s : State) (t : Byte) : State := { s with regMap := addType s.regMap t }

/-- PHASE <- RUN (R141). -/
def State.closeRegistry (s : State) : State := { s with phase := .run }

/-- The two causes of a stream fault; InvalidLength comes with the header decoded from the front of RXBUF, the one whose length is
bad (R168). -/
inductive StreamFault where
  | invalidMarker
  | invalidLength (h : Option Header)
deriving DecidableEq, Repr

/-- The value FAULT takes (R168). -/
def StreamFault.code : StreamFault → FaultReg
  | .invalidMarker => .invalidMarker
  | .invalidLength _ => .invalidLength

/-- The value HDR takes (R168): None, or the header with the bad length. -/
def StreamFault.header : StreamFault → Option Header
  | .invalidMarker => none
  | .invalidLength h => h

/-- Entering a stream fault (R168): FAULT, FAULT_POS, HDR, RES written; RXBUF, POS, PHASE, REG_MAP unchanged. -/
def State.enterStreamFault (s : State) (f : StreamFault) : State :=
  { s with fault := f.code, faultPos := some s.pos, hdr := f.header, res := none }

/-- The reset input (R142): every piece of state takes its reset value, the configuration stands. It is the only exit from a
faulted state (R171). The input leaves the port, and the inputs behind it stay. -/
def State.resetInput (s : State) : State := State.atReset s.cfg s.port.tail

/-- The header decode_header finds at the front of a buffer, if any. -/
def frontHeader (buf : Bytes) : Option Header :=
  match decodeHeader buf with
  | .header h => some h
  | .incomplete => none
  | .invalidMarker => none

/-- The Result a return of read_message stands for (R25): `(None, 0)`, `(None, n)`, `(Some m, n)`. -/
def resultOf (m : Option Message) (n : Half) : Result :=
  match m with
  | some m => .msg m n
  | none => if n = 0 then .needMore else .skip n

/-- FRAME once its command-level tests have passed (R119): read_message on RXBUF, and its outcome latched. -/
def runFramer (s : State) : StepOutcome :=
  match readMessage s.cfg.lenLimit s.regMap s.rxbuf with
  | .returns m n => .next ((s.latchFrame (frontHeader s.rxbuf) (some (resultOf m n))).respondFrame .done)
  | .invalidMarker => .next ((s.enterStreamFault .invalidMarker).respondFrame .faulted)
  | .invalidLength _ => .next ((s.enterStreamFault (.invalidLength (frontHeader s.rxbuf))).respondFrame .faulted)
  | .stubMismatch => .refused .stubPrecondition

/-- One message at the front of RXBUF whose header is `h` and whose type's decoder is `decoder`: the tests of FRAME (R119), then
steps 3 to 6 of read_message (R110) for that header, and the outcome latched (R113 to R117, R77). -/
def runMessage (h : Header) (decoder : Bytes → Option Message) (s : State) : StepOutcome :=
  if s.fault ≠ .noFault then .next (s.respondFrame .faulted)
  else if s.phase = .init then .next (s.respondFrame .refused)
  else if frontHeader s.rxbuf ≠ some h then .refused .messageNotAtFront
  else if lengthLegal s.cfg.lenLimit h.length = false then
    .next ((s.enterStreamFault (.invalidLength (some h))).respondFrame .faulted)
  else if s.rxbuf.length < h.length.toNat then
    .next ((s.latchFrame (some h) (some .needMore)).respondFrame .done)
  else if registered s.regMap h.type = false then
    .next ((s.latchFrame (some h) (some (.skip h.length))).respondFrame .done)
  else
    match decoder (s.rxbuf.take h.length.toNat) with
    | some m => .next ((s.latchFrame (some h) (some (.msg m h.length))).respondFrame .done)
    | none => .refused .stubPrecondition

/-- A reserved command code: no state change, response REFUSED, in every phase and whether or not a fault is latched (R143). -/
def refuseReserved (s : State) : State := s.respond .refused .empty

end Sys2Proof.Machine
end

