-- ==== Sys2Proof/Machine/Framer.lean ====
section
/-! DEFINITION. The meanings of the stream commands APPEND, FRAME and ADVANCE (41_framer.md R118, R119, R120). -/
namespace Sys2Proof.Machine

/-- APPEND data (R118): all or nothing. -/
def execAppend (data : Bytes) (s : State) : StepOutcome :=
  if s.fault ≠ .noFault then .next (s.respond .faulted .empty)
  else if s.cfg.bufCap < s.rxbuf.length + data.length then .next (s.respond .refused .empty)
  else .next ((s.appendBytes data).respond .done .empty)

/-- FRAME (R119): read_message once on RXBUF, and its outcome latched. -/
def execFrame (s : State) : StepOutcome :=
  if s.fault ≠ .noFault then .next (s.respondFrame .faulted)
  else if s.phase = .init then .next (s.respondFrame .refused)
  else runFramer s

/-- ADVANCE (R120): consume what the last FRAME said to consume. The slice is defined while RES.consumed <= RXLEN, which R120's
invariant gives in every run. -/
def execAdvance (s : State) : StepOutcome :=
  if s.fault ≠ .noFault then .next (s.respond .faulted .empty)
  else
    match s.res with
    | none => .next (s.respond .refused .empty)
    | some r =>
      match slice s.rxbuf (consumed r).toNat s.rxbuf.length with
      | some rest => .next ((s.consume rest (consumed r).toNat).respond .done .empty)
      | none => .fault .sliceOutOfRange

end Sys2Proof.Machine
end

