-- ==== Sys2Proof/Machine/HeaderCodec.lean ====
section
/-! DEFINITION. The meanings of the header codec's commands PEEK and ENCODE (40_header_codec.md R95, R96). -/
namespace Sys2Proof.Machine

/-- PEEK (R96): decode_header on RXBUF, no length-range check, in both phases. -/
def execPeek (s : State) : StepOutcome :=
  if s.fault ≠ .noFault then .next (s.respondPeek .faulted)
  else
    match decodeHeader s.rxbuf with
    | .incomplete => .next ((s.latchHeader none).respondPeek .done)
    | .header h => .next ((s.latchHeader (some h)).respondPeek .done)
    | .invalidMarker => .next ((s.enterStreamFault .invalidMarker).respondPeek .faulted)

/-- The answer of the encode port for an outcome of encode_header (R95). -/
def encodeAnswer : EncodeOutcome → EncodeAnswer
  | .bytes out => .ok out
  | .invalidMessageType => .invalidMessageType
  | .invalidLength _ => .invalidLength

/-- ENCODE T, body (R95): no state read or written but the configuration LEN_LIMIT, in both phases and in a faulted state. -/
def execEncode (t : Byte) (body : Bytes) (s : State) : StepOutcome :=
  .next (s.respond .done (.encoded (encodeAnswer (encodeHeader s.cfg.lenLimit t body))))

end Sys2Proof.Machine
end

