-- ==== Sys2Proof/Machine/Messages.lean ====
section
/-! DEFINITION. The meanings of the message rows of spec/opcode_table.json: OPEN, UPDATE, NOTIFICATION, KEEPALIVE, UNRECOGNIZED,
REGISTERED_OTHER (41_framer.md R113 to R117, 30_encoding.md R77). A message is executed by a FRAME that finds it at the front of
RXBUF. -/
namespace Sys2Proof.Machine

/-- OPEN, type byte 1 (R113). -/
def execOpen (length : Half) (s : State) : StepOutcome :=
  runMessage ⟨length, tOpen⟩ (decodeStub tOpen) s

/-- UPDATE, type byte 2 (R114). -/
def execUpdate (length : Half) (s : State) : StepOutcome :=
  runMessage ⟨length, tUpdate⟩ (decodeStub tUpdate) s

/-- NOTIFICATION, type byte 3 (R115): an ordinary message, no fault of its own. -/
def execNotification (length : Half) (s : State) : StepOutcome :=
  runMessage ⟨length, tNotification⟩ (decodeStub tNotification) s

/-- KEEPALIVE, type byte 4 (R116): an empty body is not required. -/
def execKeepalive (length : Half) (s : State) : StepOutcome :=
  runMessage ⟨length, tKeepalive⟩ (decodeStub tKeepalive) s

/-- UNRECOGNIZED: skip `length` bytes (R77). The registry bit tells this row from REGISTERED_OTHER (R117), so in a state whose
registry holds `t` the same words are delivered. -/
def execUnrecognized (t : Byte) (length : Half) (s : State) : StepOutcome :=
  runMessage ⟨length, t⟩ (decodeStub t) s

/-- REGISTERED_OTHER: a registered type outside 1..4 (R117), delivered with tag Unknown; skipped in a state whose registry does not
hold `t`. -/
def execRegisteredOther (t : Byte) (length : Half) (s : State) : StepOutcome :=
  runMessage ⟨length, t⟩ (decodeStub t) s

end Sys2Proof.Machine
end

