-- ==== Sys2Proof/Machine/SystemOps.lean ====
section
/-! DEFINITION. The meanings of the registry commands REGISTER_TYPE and SEAL (42_registry_system.md R140, R141). -/
namespace Sys2Proof.Machine

/-- REGISTER_TYPE t (R140). -/
def execRegisterType (t : Byte) (s : State) : StepOutcome :=
  if s.fault ≠ .noFault then .next (s.respond .faulted .empty)
  else if s.phase = .run then .next (s.respond .refused .empty)
  else if t = tNil then .next (s.respond .refused .empty)
  else .next ((s.register t).respond .done .empty)

/-- SEAL (R141). -/
def execSeal (s : State) : StepOutcome :=
  if s.fault ≠ .noFault then .next (s.respond .faulted .empty)
  else if s.phase = .run then .next (s.respond .refused .empty)
  else .next (s.closeRegistry.respond .done .empty)

end Sys2Proof.Machine
end

