-- ==== Sys2Proof/Machine/Dispatch.lean ====
section
/-! DEFINITION. The meaning of every instruction: one arm per row of spec/opcode_table.json. -/
namespace Sys2Proof.Machine

def exec (i : Instr) (s : State) : Host.Outcome State Fault Refusal :=
  match i with
  | .openMsg length => Sys2Proof.Machine.execOpen length s
  | .updateMsg length => Sys2Proof.Machine.execUpdate length s
  | .notificationMsg length => Sys2Proof.Machine.execNotification length s
  | .keepaliveMsg length => Sys2Proof.Machine.execKeepalive length s
  | .unrecognized t length => Sys2Proof.Machine.execUnrecognized t length s
  | .registeredOther t length => Sys2Proof.Machine.execRegisteredOther t length s
  | .registerType t => Sys2Proof.Machine.execRegisterType t s
  | .sealRegistry => Sys2Proof.Machine.execSeal s
  | .append data => Sys2Proof.Machine.execAppend data s
  | .peek => Sys2Proof.Machine.execPeek s
  | .frame => Sys2Proof.Machine.execFrame s
  | .advance => Sys2Proof.Machine.execAdvance s
  | .encode t body => Sys2Proof.Machine.execEncode t body s

end Sys2Proof.Machine
end

