-- ==== Sys2Proof/Machine/Fetch.lean ====
section
/-! DEFINITION. What a step fetches: the next input of the host and the command it decodes to (30_encoding.md R82, R83), and how a
word of spec/opcode_table.json is placed where it is fetched. -/
namespace Sys2Proof.Machine

/-- What the host does next (R20): nothing, reset, a reserved code, or a command. -/
inductive Fetched where
  | nothing
  | reset
  | reserved
  | command (i : Instr)
deriving DecidableEq, Repr

/-- The next input at the block (R20, R82, R83, R142). -/
def fetch (s : State) : Fetched :=
  match s.port with
  | [] => .nothing
  | .reset :: _ => .reset
  | .command w :: _ =>
    match decodeCommand w with
    | .ok i => .command i
    | .error _ => .reserved

/-- The bytes of a message as it stands in RXBUF when its body is zeros: the header, and length - 19 zero bytes where the length is
one the framer accepts (R58, R79). -/
def zeroBodied (limit : Nat) (bytes : Bytes) : Bytes :=
  match decodeHeader bytes with
  | .header h =>
    if lengthLegal limit h.length then bytes ++ List.replicate (h.length.toNat - headerLen) 0 else bytes
  | .incomplete => bytes
  | .invalidMarker => bytes

/-- A code placed where a step fetches it (log entry 7). A command is put on the port. A message is put at the front of RXBUF with
the registry closed, no fault latched, and FRAME on the port, since a message is executed by the FRAME that finds it. -/
def State.place (s : State) : Code → State
  | .command w => { s with port := [.command w] }
  | .header bytes =>
    { s with
      rxbuf := zeroBodied s.cfg.lenLimit bytes
      phase := .run
      fault := .noFault
      faultPos := none
      port := [.command ⟨0x5, 0, []⟩] }

end Sys2Proof.Machine
end

