-- ==== Sys2Proof/Machine/Step.lean ====
section
/-! DEFINITION. One step of the block: the host's next input is taken whole (20_memory.md R60, 42_registry_system.md R142, R143). -/
namespace Sys2Proof.Machine

/-- One step. With no input of the host the block does nothing (R20, log entry 5); reset is always taken (R142, R185); a reserved
code is refused (R143); a command is executed. -/
def step (s : State) : Host.Outcome State Fault Refusal :=
  match fetch s with
  | .nothing => .next s
  | .reset => .next s.resetInput
  | .reserved => .next (refuseReserved s)
  | .command i => exec i s

/-- `s` with the instruction of a table word placed where `step` fetches next (log entry 7). -/
def State.withFetchWord (s : State) (nbits w : Nat) : State :=
  match codeOfTableWord nbits w with
  | some code => s.place code
  | none => s

end Sys2Proof.Machine
end

