-- ==== Sys2Proof/Machine/Assembler.lean ====
section
/-! DEFINITION. The test-program notation and the pseudo-instructions of 30_encoding.md R85: a host input as a line of text, and the
inputs or bytes each pseudo-instruction stands for. -/
namespace Sys2Proof.Machine

/-- The input by which the host issues a command; a message row is no command of the port (R82). -/
def inputOf (i : Instr) : Option HostInput :=
  match encode i with
  | .command w => some (.command w)
  | .header _ => none

/-- `MARKER` as an APPEND operand (R85). -/
def asmMarker : Bytes := marker
/-- `KEEPALIVE` as an APPEND operand: the 19 bytes of the source's scenario (R85). -/
def asmKeepalive : Bytes :=
  [0xff, 0xff, 0xff, 0xff, 0xff, 0xff, 0xff, 0xff, 0xff, 0xff, 0xff, 0xff, 0xff, 0xff, 0xff, 0xff, 0x00, 0x13, 0x04]
/-- `MSG T : body` as an APPEND operand: the bytes ENCODE returns with ENC_STATUS = OK (R85). -/
def asmMsg (limit : Nat) (t : Byte) (body : Bytes) : Option Bytes :=
  match encodeHeader limit t body with
  | .bytes out => some out
  | .invalidMessageType => none
  | .invalidLength _ => none

/-- The input FRAME (R82). -/
def inFrame : HostInput := .command ⟨0x5, 0, []⟩
/-- The input ADVANCE (R82). -/
def inAdvance : HostInput := .command ⟨0x6, 0, []⟩
/-- The input SEAL (R82). -/
def inSeal : HostInput := .command ⟨0x2, 0, []⟩

/-- `STEP`: FRAME then ADVANCE (R85). -/
def asmStep : List HostInput := [inFrame, inAdvance]
/-- `BOOT`: RESET then SEAL (R85). -/
def asmBoot : List HostInput := [.reset, inSeal]
/-- `k` times `STEP`, the loop of `DRAIN` (R85) unrolled: a host repeats STEP until a FRAME answers NEED_MORE or FAULTED. -/
def asmSteps : Nat → List HostInput
  | 0 => []
  | k + 1 => asmStep ++ asmSteps k

/-- One hexadecimal digit. -/
def hexDigit (n : Nat) : String :=
  String.singleton (if n < 10 then Char.ofNat (48 + n) else Char.ofNat (87 + n))
/-- A byte as two hexadecimal digits (R85). -/
def hexByte (b : Byte) : String := hexDigit (b.toNat / 16) ++ hexDigit (b.toNat % 16)
/-- Bytes as two-digit hex, each after a space (R85). -/
def hexBytes : Bytes → String
  | [] => ""
  | b :: bs => " " ++ hexByte b ++ hexBytes bs

/-- A command as a line of the notation (R85); a message row is no line of it. -/
def asmLine : Instr → Option String
  | .openMsg _ => none
  | .updateMsg _ => none
  | .notificationMsg _ => none
  | .keepaliveMsg _ => none
  | .unrecognized _ _ => none
  | .registeredOther _ _ => none
  | .registerType t => some ("REGISTER_TYPE " ++ hexByte t)
  | .sealRegistry => some "SEAL"
  | .append data => some ("APPEND" ++ hexBytes data)
  | .peek => some "PEEK"
  | .frame => some "FRAME"
  | .advance => some "ADVANCE"
  | .encode t body => some ("ENCODE " ++ hexByte t ++ " :" ++ hexBytes body)

/-- An input of the host as a line (R85); a reserved code has none. -/
def asmInput : HostInput → Option String
  | .reset => some "RESET"
  | .command w =>
    match decodeCommand w with
    | .ok i => asmLine i
    | .error _ => none

end Sys2Proof.Machine
end

