-- ==== Sys2Proof/Safety.lean ====
section
/-! DEFINITION. The stopping states of a run (70_reset_and_hazards.md R199) and the invariant of the block: what the spec says
always holds of its state (10_state.md R21, R24, R25, R26, R29, R31; 41_framer.md R120; 20_memory.md R63; 60_exceptions.md R168,
R169). -/
namespace Sys2Proof.Machine

/-- A clean stopping state (R199). -/
def State.clean (s : State) : Bool := s.fault == .noFault && s.rxbuf.isEmpty && s.res.isNone
/-- A pending state, not final (R199). -/
def State.pending (s : State) : Bool := s.fault == .noFault && (!s.rxbuf.isEmpty || s.res.isSome)
/-- A faulted state, never final (R199). -/
def State.isFaulted (s : State) : Bool := s.fault != .noFault

/-- A run of `k` steps (R199), the commands and resets being those at the port; it ends early where a step stops. -/
def runSteps : Nat → State → StepOutcome
  | 0, s => .next s
  | k + 1, s =>
    match step s with
    | .next t => runSteps k t
    | .fault r => .fault r
    | .refused r => .refused r

/-- The shape of a latched Result (R25, R26, R111): a SKIP or MSG counts a legal length, a MSG is a well-formed Message of a
registered type whose length is the count. -/
def Result.shaped (limit : Nat) (reg : RegMap) : Result → Prop
  | .needMore => True
  | .skip n => lengthLegal limit n = true
  | .msg m n => m.length = n ∧ messageWf limit m = true ∧ registered reg m.type = true

/-- What always holds of the block. -/
structure State.Inv (s : State) : Prop where
  /-- The configuration meets its constraints (R7, R187). -/
  cfgWf : s.cfg.Wf
  /-- RXLEN <= BUFCAP (R21). -/
  fits : Memory.wf s.cfg.bufCap s.rxbuf
  /-- POS is a W_POS-bit value (R24). -/
  posBound : s.pos < 2 ^ s.cfg.wPos
  /-- REG_MAP[0] is 0 (R29). -/
  nilUnregistered : s.regMap.getLsbD 0 = false
  /-- HDR describes the header bytes at the front of RXBUF (R23). -/
  hdrFront : ∀ h, s.hdr = some h → frontHeader s.rxbuf = some h
  /-- RES is valid only in phase RUN (R120: "In phase INIT RES is always None"). -/
  resRun : s.res ≠ none → s.phase = .run
  /-- RES.consumed <= RXLEN (R120). -/
  resFits : ∀ r, s.res = some r → (consumed r).toNat ≤ s.rxbuf.length
  /-- The shape of RES (R25, R26). -/
  resShape : ∀ r, s.res = some r → r.shaped s.cfg.lenLimit s.regMap
  /-- A latched SKIP or MSG is what read_message still returns (R63 (a)). -/
  resCurrent : ∀ r, s.res = some r → r ≠ .needMore →
    readMessage s.cfg.lenLimit s.regMap s.rxbuf = .returns (resultMessage r) (consumed r)
  /-- FAULT_POS holds POS while a fault is latched and no value otherwise (R31, R168). -/
  faultPosIs : s.faultPos = if s.fault = .noFault then none else some s.pos
  /-- RES is empty while a fault is latched (R168, R169). -/
  faultRes : s.fault ≠ .noFault → s.res = none
  /-- INVALID_MARKER: HDR is empty and the marker at the front is bad (R161, R168). -/
  markerFault : s.fault = .invalidMarker → s.hdr = none ∧ decodeHeader s.rxbuf = .invalidMarker
  /-- INVALID_LENGTH: raised by FRAME alone, so in phase RUN; HDR holds the header at the front, whose length is illegal (R163,
  R168). -/
  lengthFault : s.fault = .invalidLength →
    s.phase = .run ∧ ∃ h, s.hdr = some h ∧ lengthLegal s.cfg.lenLimit h.length = false

/-! ### What a command leaves unchanged, and how it answers -/

/-- RXBUF and POS are unchanged: every byte at every offset reads as before. -/
@[simp] abbrev KeepsStream (s t : State) : Prop := t.rxbuf = s.rxbuf ∧ t.pos = s.pos
/-- HDR and RES are unchanged. -/
@[simp] abbrev KeepsLatches (s t : State) : Prop := t.hdr = s.hdr ∧ t.res = s.res
/-- PHASE and REG_MAP are unchanged. -/
@[simp] abbrev KeepsRegistry (s t : State) : Prop := t.phase = s.phase ∧ t.regMap = s.regMap
/-- FAULT and FAULT_POS are unchanged. -/
@[simp] abbrev KeepsFault (s t : State) : Prop := t.fault = s.fault ∧ t.faultPos = s.faultPos
/-- The whole state of the block and its configuration are unchanged. -/
@[simp] abbrev KeepsAll (s t : State) : Prop :=
  t.cfg = s.cfg ∧ KeepsStream s t ∧ KeepsLatches s t ∧ KeepsRegistry s t ∧ KeepsFault s t
/-- The command has left the port and the block has answered (R60, R84). -/
@[simp] abbrev Answered (s t : State) (r : Rsp) (p : Payload) : Prop := t.port = s.port.tail ∧ t.rsp = some ⟨r, p⟩

/-- The block frames: no fault latched and the registry closed (R119). -/
@[simp] abbrev Framing (s : State) : Prop := s.fault = .noFault ∧ s.phase = .run

/-- The host's next input is not reset. -/
@[simp] abbrev NotResetNext (s : State) : Prop := ∀ q, s.port ≠ .reset :: q

/-- The host's next input is the command `i`. -/
@[simp] abbrev CommandNext (s : State) (i : Instr) : Prop := ∃ w q, s.port = .command w :: q ∧ decodeCommand w = .ok i

/-- The message instructions with their type byte and length field (R76). -/
def messageHeader : Instr → Option Header
  | .openMsg length => some ⟨length, tOpen⟩
  | .updateMsg length => some ⟨length, tUpdate⟩
  | .notificationMsg length => some ⟨length, tNotification⟩
  | .keepaliveMsg length => some ⟨length, tKeepalive⟩
  | .unrecognized t length => some ⟨length, t⟩
  | .registeredOther t length => some ⟨length, t⟩
  | .registerType _ => none
  | .sealRegistry => none
  | .append _ => none
  | .peek => none
  | .frame => none
  | .advance => none
  | .encode _ _ => none

/-- A message instruction stands at the front of RXBUF of a block that frames. -/
@[simp] abbrev AtFront (i : Instr) (h : Header) (s : State) : Prop :=
  messageHeader i = some h ∧ Framing s ∧ frontHeader s.rxbuf = some h

/-- The wire bytes of a message with type `m.1` and body `m.2` (R70). -/
def wireBytes (m : Byte × Bytes) : Bytes := headerBytes ⟨BitVec.ofNat 16 (m.2.length + headerLen), m.1⟩ ++ m.2

/-- The wire bytes of messages back to back (R75). -/
def wireStream : List (Byte × Bytes) → Bytes
  | [] => []
  | m :: ms => wireBytes m ++ wireStream ms

/-- The Result that a well-framed message gives (R113 to R117, R77). -/
def resultFor (reg : RegMap) (m : Byte × Bytes) : Result :=
  let n : Half := BitVec.ofNat 16 (m.2.length + headerLen)
  if registered reg m.1 then .msg ⟨m.1, n, m.2⟩ n else .skip n

/-- The bytes at the front are not a whole message yet, and nothing is wrong with them (R110 steps 1 and 4). -/
def awaitsMore (limit : Nat) (buf : Bytes) : Prop :=
  buf.length < headerLen ∨ ∃ h, decodeHeader buf = .header h ∧ lengthLegal limit h.length = true ∧ buf.length < h.length.toNat

/-! ### What a run delivers -/

/-- The Result the next step consumes: the SKIP or MSG that an accepted ADVANCE finds in RES (R120, R121). -/
def deliveredNext (s : State) : List Result :=
  match fetch s, s.res with
  | .command .advance, some (.skip n) => if s.fault = .noFault then [.skip n] else []
  | .command .advance, some (.msg m n) => if s.fault = .noFault then [.msg m n] else []
  | _, _ => []

/-- The bytes the next step takes in: those of an accepted APPEND (R118). -/
def acceptedNext (s : State) : Bytes :=
  match fetch s with
  | .command (.append data) =>
    if s.fault = .noFault ∧ s.rxbuf.length + data.length ≤ s.cfg.bufCap then data else []
  | _ => []

/-- The Results a run of `k` steps consumes, in order. -/
def delivered : Nat → State → List Result
  | 0, _ => []
  | k + 1, s =>
    match step s with
    | .next t => deliveredNext s ++ delivered k t
    | .fault _ => []
    | .refused _ => []

/-- The bytes a run of `k` steps takes in, in order. -/
def accepted : Nat → State → Bytes
  | 0, _ => []
  | k + 1, s =>
    match step s with
    | .next t => acceptedNext s ++ accepted k t
    | .fault _ => []
    | .refused _ => []

end Sys2Proof.Machine
end

