-- ==== Sys2Proof/Certificates/Slice0/Obligations.lean ====
section
/-! DEFINITION. The statements for the provers, from the numbered rules of spec/. -/
open Sys2Proof Sys2Proof.Machine

/-! ### Encoding -/

/-- Words written out from R70, R76 and the examples of R113 to R117, and the command codes of R82, decode to the instructions they
stand for. -/
def Obligations.WordsWrittenOutDecode : Prop :=
  let reg := resetRegistry Config.recommended
  let ff16 : Bytes := [255, 255, 255, 255, 255, 255, 255, 255, 255, 255, 255, 255, 255, 255, 255, 255]
  decode reg (.header (ff16 ++ [0x00, 0x1d, 0x01])) = .ok (.openMsg 29) ∧
  decode reg (.header (ff16 ++ [0x00, 0x17, 0x02, 0, 0, 0, 0])) = .ok (.updateMsg 23) ∧
  decode reg (.header (ff16 ++ [0x00, 0x15, 0x03, 6, 2])) = .ok (.notificationMsg 21) ∧
  decode reg (.header (ff16 ++ [0x00, 0x13, 0x04])) = .ok (.keepaliveMsg 19) ∧
  decode reg (.header (ff16 ++ [0x00, 0x17, 0x05, 0, 1, 1, 0x80])) = .ok (.unrecognized 5 23) ∧
  decode (addType reg 5) (.header (ff16 ++ [0x00, 0x17, 0x05, 0, 1, 1, 0x80])) = .ok (.registeredOther 5 23) ∧
  decode reg (.command ⟨1, 5, []⟩) = .ok (.registerType 5) ∧
  decode reg (.command ⟨2, 0, []⟩) = .ok .sealRegistry ∧
  decode reg (.command ⟨3, 0, [255, 0]⟩) = .ok (.append [255, 0]) ∧
  decode reg (.command ⟨4, 0, []⟩) = .ok .peek ∧
  decode reg (.command ⟨5, 0, []⟩) = .ok .frame ∧
  decode reg (.command ⟨6, 0, []⟩) = .ok .advance ∧
  decode reg (.command ⟨7, 2, [0, 0]⟩) = .ok (.encode 2 [0, 0])

/-- Every instruction that is its own row under a registry decodes back from its code, every operand at every value (R70, R76, R77,
R82); a message also when more bytes follow its header (R75). -/
def Obligations.DecodeInvertsEncode : Prop :=
  ∀ (reg : RegMap) (i : Instr), i.rowFits reg = true →
    decode reg (encode i) = .ok i ∧
    ∀ bytes rest, encode i = .header bytes → bytes.length = 19 ∧ decode reg (.header (bytes ++ rest)) = .ok i

/-- What decodes as a message is its own row, and encoding it gives back the 19 header bytes; what decodes as a command encodes to the
same CMD. -/
def Obligations.EncodeInvertsDecode : Prop :=
  ∀ (reg : RegMap) (i : Instr),
    (∀ bytes, decode reg (.header bytes) = .ok i → i.rowFits reg = true ∧ encode i = .header (bytes.take 19)) ∧
    (∀ w, decode reg (.command w) = .ok i → i.rowFits reg = true ∧ ∃ v, encode i = .command v ∧ v.cmd = w.cmd)

/-- Decoding refuses by name exactly: a buffer of fewer than 19 bytes, a marker with a byte that is not 0xFF (R78), a command code 0x0
or 0x8..0xF (R83). -/
def Obligations.DecodeRefusesExactlyTheIllegal : Prop :=
  ∀ (reg : RegMap),
    (∀ bytes, decode reg (.header bytes) = .error .shortHeader ↔ bytes.length < 19) ∧
    (∀ bytes, decode reg (.header bytes) = .error .illegalMarker ↔
      19 ≤ bytes.length ∧ ∃ k, k < 16 ∧ bytes[k]? ≠ some 0xFF) ∧
    (∀ w, decode reg (.command w) = .error .reservedCommand ↔ w.cmd.toNat = 0 ∨ 8 ≤ w.cmd.toNat)

/-! ### The pure functions -/

/-- decode_header (R92): its three outcomes; length = buf[16] * 256 + buf[17], type = buf[18]. -/
def Obligations.DecodeHeaderHasThreeOutcomes : Prop :=
  ∀ buf : Bytes,
    (buf.length < 19 → decodeHeader buf = .incomplete) ∧
    (19 ≤ buf.length → (∃ k, k < 16 ∧ buf[k]? ≠ some 0xFF) → decodeHeader buf = .invalidMarker) ∧
    (19 ≤ buf.length → (∀ k, k < 16 → buf[k]? = some 0xFF) →
      ∃ b16 b17 b18 h, buf[16]? = some b16 ∧ buf[17]? = some b17 ∧ buf[18]? = some b18 ∧
        decodeHeader buf = .header h ∧ h.length.toNat = b16.toNat * 256 + b17.toNat ∧ h.type = b18)

/-- encode_header (R90): T = 0 first, then the total above LEN_LIMIT, else marker, the total big-endian, T, body. -/
def Obligations.EncodeHeaderBuildsTheMessage : Prop :=
  ∀ (c : Config) (t : Byte) (body : Bytes),
    (t = 0 → encodeHeader c.lenLimit t body = .invalidMessageType) ∧
    (t ≠ 0 → c.lenLimit < body.length + 19 →
      encodeHeader c.lenLimit t body = .invalidLength (body.length + 19)) ∧
    (t ≠ 0 → body.length + 19 ≤ c.lenLimit →
      ∃ hi lo : Byte, hi.toNat * 256 + lo.toNat = body.length + 19 ∧
        encodeHeader c.lenLimit t body = .bytes (List.replicate 16 0xFF ++ [hi, lo] ++ [t] ++ body))

/-- The round-trip law R94. -/
def Obligations.HeaderRoundTrip : Prop :=
  ∀ (c : Config) (t : Byte) (body : Bytes), t ≠ 0 → body.length + 19 ≤ c.lenLimit →
    ∃ out h, encodeHeader c.lenLimit t body = .bytes out ∧ decodeHeader out = .header h ∧
      h.length.toNat = body.length + 19 ∧ h.type = t

/-- encode(message) (R93): the carried length is not used, and for a well-formed Message the written length equals it. -/
def Obligations.EncodeRecomputesTheLength : Prop :=
  ∀ (c : Config) (m : Message),
    (∀ l, encodeMessage c.lenLimit { m with length := l } = encodeHeader c.lenLimit m.type m.payload) ∧
    (m.type ≠ 0 → messageWf c.lenLimit m = true →
      encodeMessage c.lenLimit m = .bytes (headerBytes ⟨m.length, m.type⟩ ++ m.payload))

/-- decode_stub (R112): a frame whose header has type T and whose length is the header's becomes the Message with the payload
frame[19:]; on any other frame the model gives it no Message (U6). -/
def Obligations.DecodeStubWrapsTheFrame : Prop :=
  ∀ (t : Byte) (frame : Bytes),
    (∀ h, decodeHeader frame = .header h → h.type = t → frame.length = h.length.toNat →
      decodeStub t frame = some ⟨t, h.length, frame.drop 19⟩) ∧
    ((¬ ∃ h, decodeHeader frame = .header h ∧ h.type = t ∧ frame.length = h.length.toNat) → decodeStub t frame = none)

/-- read_message (R110) with the order of its checks (R167). -/
def Obligations.ReadMessageFollowsItsSteps : Prop :=
  ∀ (c : Config) (reg : RegMap) (buf : Bytes),
    (buf.length < 19 → readMessage c.lenLimit reg buf = .returns none 0) ∧
    (decodeHeader buf = .invalidMarker → readMessage c.lenLimit reg buf = .invalidMarker) ∧
    ∀ h, decodeHeader buf = .header h →
      (h.length.toNat < 19 ∨ c.lenLimit < h.length.toNat →
        readMessage c.lenLimit reg buf = .invalidLength h.length) ∧
      (19 ≤ h.length.toNat → h.length.toNat ≤ c.lenLimit → buf.length < h.length.toNat →
        readMessage c.lenLimit reg buf = .returns none 0) ∧
      (19 ≤ h.length.toNat → h.length.toNat ≤ c.lenLimit → h.length.toNat ≤ buf.length → registered reg h.type = false →
        readMessage c.lenLimit reg buf = .returns none h.length) ∧
      (19 ≤ h.length.toNat → h.length.toNat ≤ c.lenLimit → h.length.toNat ≤ buf.length → registered reg h.type = true →
        readMessage c.lenLimit reg buf =
          .returns (some ⟨h.type, h.length, (buf.take h.length.toNat).drop 19⟩) h.length)

/-- A consumed count is 0 with no Message, or a legal length; a returned Message is well-formed, of a registered type, and its payload
is buf[19:length] (R110 corner case i, R111). -/
def Obligations.ReturnedCountsAndMessagesAreLegal : Prop :=
  ∀ (c : Config) (reg : RegMap) (buf : Bytes) (m : Option Message) (n : Half),
    readMessage c.lenLimit reg buf = .returns m n →
      (n = 0 ∧ m = none ∨ 19 ≤ n.toNat ∧ n.toNat ≤ c.lenLimit ∧ n.toNat ≤ buf.length) ∧
      ∀ x, m = some x → messageWf c.lenLimit x = true ∧ registered reg x.type = true ∧ x.length = n ∧
        x.payload = (buf.take n.toNat).drop 19

/-- Idempotence of framing (R123): bytes behind a complete message change no result. -/
def Obligations.TrailingBytesAreUnread : Prop :=
  ∀ (c : Config) (reg : RegMap) (buf rest : Bytes) (m : Option Message) (n : Half),
    readMessage c.lenLimit reg buf = .returns m n → n ≠ 0 →
      readMessage c.lenLimit reg (buf ++ rest) = .returns m n

/-- The framer round trip R124. -/
def Obligations.FramerRoundTrip : Prop :=
  ∀ (c : Config) (reg : RegMap) (t : Byte) (body rest : Bytes),
    t ≠ 0 → registered reg t = true → body.length + 19 ≤ c.lenLimit →
      ∃ out n, encodeHeader c.lenLimit t body = .bytes out ∧ n.toNat = body.length + 19 ∧
        readMessage c.lenLimit reg (out ++ rest) = .returns (some ⟨t, n, body⟩) n ∧
        encodeMessage c.lenLimit ⟨t, n, body⟩ = .bytes out

/-- Registry lookup (R144) with REG_MAP[0] hardwired (R29), over the registry after reset: exactly the types of REG_RESET, and type
0 never, whatever the 256 bits hold. -/
def Obligations.RegistryLookup : Prop :=
  (∀ reg : RegMap, registered reg 0 = false) ∧
  (∀ (reg : RegMap) (t : Byte), t ≠ 0 → registered reg t = reg.getLsbD t.toNat) ∧
  (∀ t : Byte, registered (resetRegistry Config.recommended) t = true ↔ t = 1 ∨ t = 2 ∨ t = 3 ∨ t = 4)

/-! ### Reset -/

/-- The table of R37 for every configuration with 0 not in REG_RESET, with the flags of R27. The configuration carried by State.reset is
log entry 1's; the model's own fields port and rsp are log entries 2 and 3 and are not stated here. -/
def Obligations.ResetValues : Prop :=
  ∀ (c : Config) (q : List HostInput), c.Wf →
    let s := State.atReset c q
    s.rxbuf = [] ∧ s.hdr = none ∧ s.pos = 0 ∧ s.res = none ∧ s.phase = .init ∧
    (∀ t : Byte, s.regMap.getLsbD t.toNat = c.regReset.getLsbD t.toNat) ∧ s.regMap.getLsbD 0 = false ∧
    s.fault = .noFault ∧ s.faultPos = none ∧
    hdrValid s = false ∧ resValid s = false ∧ faultLine s = false ∧ rxReady s = true ∧ s.cfg = c

/-- Reset (R142, R185): taken at once in every state, every piece of state at its reset value, the configuration as it was; the inputs
behind it stay to be taken. -/
def Obligations.ResetInputIsAlwaysTaken : Prop :=
  ∀ (s : State) (q : List HostInput), s.port = .reset :: q →
    ∃ t, step s = .next t ∧ t.rxbuf = [] ∧ t.hdr = none ∧ t.res = none ∧ t.pos = 0 ∧ t.phase = .init ∧
      (∀ b : Byte, b ≠ 0 → registered t.regMap b = s.cfg.regReset.getLsbD b.toNat) ∧ t.regMap.getLsbD 0 = false ∧
      t.fault = .noFault ∧ t.faultPos = none ∧ t.cfg = s.cfg ∧ t.port = q

/-! ### Steps -/

/-- A command at the port that decodes to an instruction is executed: the step is exec of it. exec itself takes the command off the
port with its response (R60). With no input of the host the block stays as it is (log entry 5). -/
def Obligations.StepRunsTheDecodedCommand : Prop :=
  (∀ (s : State) (w : PortWord) (q : List HostInput) (i : Instr),
    s.port = .command w :: q → decodeCommand w = .ok i → step s = exec i s) ∧
  (∀ s : State, s.port = [] → step s = .next s)

/-- A FRAME at the port executes the message at the front of RXBUF: where the bytes at POS decode, under REG_MAP, to a message
instruction, the step is exec of that instruction (R119, R113 to R117, R77; the model's reading, log entry 9, DEDUCED). -/
def Obligations.FrameStepRunsTheMessageAtTheFront : Prop :=
  ∀ (s : State) (w : PortWord) (q : List HostInput) (i : Instr),
    s.port = .command w :: q → decodeCommand w = .ok .frame → decode s.regMap (.header s.rxbuf) = .ok i →
      step s = exec i s

/-- Reserved command codes (R143): refused in every state, nothing of the block changes. -/
def Obligations.ReservedCodesAreRefused : Prop :=
  ∀ (s : State) (w : PortWord) (q : List HostInput),
    s.port = .command w :: q → w.cmd.toNat = 0 ∨ 8 ≤ w.cmd.toNat →
      ∃ t, step s = .next t ∧ KeepsAll s t ∧ Answered s t .refused .empty

/-- Each step takes exactly the host's next input and no more (R60). -/
def Obligations.EachStepTakesOneInput : Prop :=
  ∀ s t : State, step s = .next t → t.port = s.port.tail

/-! ### The registry commands -/

/-- REGISTER_TYPE (R140) where it has its effect: in INIT, no fault latched, t not 0. One bit of REG_MAP is set, nothing else of the
block changes. -/
def Obligations.RegisterTypeAddsOneType : Prop :=
  ∀ (s : State) (t : Byte), s.fault = .noFault → s.phase = .init → t ≠ 0 →
    ∃ u, exec (.registerType t) s = .next u ∧
      (∀ b : Byte, registered u.regMap b = (registered s.regMap b || b == t)) ∧
      u.phase = s.phase ∧ u.cfg = s.cfg ∧ KeepsStream s u ∧ KeepsLatches s u ∧ KeepsFault s u ∧
      Answered s u .done .empty

/-- SEAL (R141) where it has its effect: in INIT, no fault latched. -/
def Obligations.SealClosesTheRegistry : Prop :=
  ∀ s : State, s.fault = .noFault → s.phase = .init →
    ∃ u, exec .sealRegistry s = .next u ∧ u.phase = .run ∧ u.regMap = s.regMap ∧ u.cfg = s.cfg ∧
      KeepsStream s u ∧ KeepsLatches s u ∧ KeepsFault s u ∧ Answered s u .done .empty

/-! ### The stream commands -/

/-- APPEND (R118) where it has its effect: no fault latched and the bytes fit. The bytes stand at RXLEN and on, every byte below
reads as before, nothing else of the block changes; n = 0 is such a case and changes nothing. -/
def Obligations.AppendStoresAtTheTail : Prop :=
  ∀ (s : State) (data : Bytes), s.fault = .noFault → s.rxbuf.length + data.length ≤ s.cfg.bufCap →
    ∃ u, exec (.append data) s = .next u ∧ u.rxbuf = s.rxbuf ++ data ∧
      (∀ a, a < s.rxbuf.length → readByte u.rxbuf a = readByte s.rxbuf a) ∧
      (∀ k, readByte u.rxbuf (s.rxbuf.length + k) = data[k]?) ∧
      u.pos = s.pos ∧ u.cfg = s.cfg ∧ KeepsLatches s u ∧ KeepsRegistry s u ∧ KeepsFault s u ∧
      Answered s u .done .empty

/-- Two APPENDs and one of the bytes together give the same buffer (R118: the chunking is free). -/
def Obligations.AppendChunkingIsFree : Prop :=
  ∀ (s : State) (a b : Bytes), s.fault = .noFault → s.rxbuf.length + (a ++ b).length ≤ s.cfg.bufCap →
    ∃ u v w, exec (.append a) s = .next u ∧ exec (.append b) u = .next v ∧ exec (.append (a ++ b)) s = .next w ∧
      KeepsAll w v ∧ v.rsp = w.rsp

/-- PEEK (R96) where no fault is latched: its three outcomes. No range check is applied. The payload of the FAULTED answer in the third
clause is the model's choice (log entry 3, DESIGN CHOICE); R82 gives PEEK the payload HDR. -/
def Obligations.PeekLatchesTheHeader : Prop :=
  ∀ s : State, s.fault = .noFault →
    (decodeHeader s.rxbuf = .incomplete →
      ∃ u, exec .peek s = .next u ∧ u.hdr = none ∧ u.res = s.res ∧ u.cfg = s.cfg ∧
        KeepsStream s u ∧ KeepsRegistry s u ∧ KeepsFault s u ∧ Answered s u .done (.header none)) ∧
    (∀ h, decodeHeader s.rxbuf = .header h →
      ∃ u, exec .peek s = .next u ∧ u.hdr = some h ∧ u.res = s.res ∧ u.cfg = s.cfg ∧
        KeepsStream s u ∧ KeepsRegistry s u ∧ KeepsFault s u ∧ Answered s u .done (.header (some h))) ∧
    (decodeHeader s.rxbuf = .invalidMarker →
      ∃ u, exec .peek s = .next u ∧ u.fault = .invalidMarker ∧ u.faultPos = some s.pos ∧ u.hdr = none ∧ u.res = none ∧
        u.cfg = s.cfg ∧ KeepsStream s u ∧ KeepsRegistry s u ∧ Answered s u .faulted (.header none))

/-- FRAME (R119) where it runs the framer: no fault latched and phase RUN. HDR and RES take what read_message answers; on an
exception the stream fault is entered (R168). The payload of the FAULTED answers in the second and third clause is the model's choice
(log entry 3, DESIGN CHOICE); R82 gives FRAME the payload HDR and RES. -/
def Obligations.FrameLatchesTheOutcome : Prop :=
  ∀ s : State, Framing s →
    (∀ m n, readMessage s.cfg.lenLimit s.regMap s.rxbuf = .returns m n →
      ∃ u, exec .frame s = .next u ∧
        (s.rxbuf.length < 19 → u.hdr = none) ∧ (∀ h, decodeHeader s.rxbuf = .header h → u.hdr = some h) ∧
        (m = none → n = 0 → u.res = some .needMore) ∧
        (m = none → n ≠ 0 → u.res = some (.skip n)) ∧
        (∀ x, m = some x → u.res = some (.msg x n)) ∧
        u.cfg = s.cfg ∧ KeepsStream s u ∧ KeepsRegistry s u ∧ KeepsFault s u ∧
        Answered s u .done (.framed u.hdr u.res)) ∧
    (readMessage s.cfg.lenLimit s.regMap s.rxbuf = .invalidMarker →
      ∃ u, exec .frame s = .next u ∧ u.fault = .invalidMarker ∧ u.faultPos = some s.pos ∧ u.hdr = none ∧ u.res = none ∧
        u.cfg = s.cfg ∧ KeepsStream s u ∧ KeepsRegistry s u ∧ Answered s u .faulted (.framed none none)) ∧
    (∀ l, readMessage s.cfg.lenLimit s.regMap s.rxbuf = .invalidLength l →
      ∃ u h, exec .frame s = .next u ∧ decodeHeader s.rxbuf = .header h ∧ h.length = l ∧
        u.fault = .invalidLength ∧ u.faultPos = some s.pos ∧ u.hdr = some h ∧ u.res = none ∧
        u.cfg = s.cfg ∧ KeepsStream s u ∧ KeepsRegistry s u ∧ Answered s u .faulted (.framed (some h) none))

/-- ADVANCE (R120) where it consumes: no fault latched, RES valid, and the count within the buffer, as R120's invariant gives. The
first n bytes are gone, the byte at offset n + a stands at offset a, POS moves by n modulo 2^W_POS, both latches are empty. -/
def Obligations.AdvanceConsumesTheCount : Prop :=
  ∀ (s : State) (r : Result), s.fault = .noFault → s.res = some r → (consumed r).toNat ≤ s.rxbuf.length →
    ∃ u, exec .advance s = .next u ∧ u.rxbuf = s.rxbuf.drop (consumed r).toNat ∧
      (∀ a, readByte u.rxbuf a = readByte s.rxbuf ((consumed r).toNat + a)) ∧
      u.pos = (s.pos + (consumed r).toNat) % 2 ^ s.cfg.wPos ∧ u.res = none ∧ u.hdr = none ∧
      u.cfg = s.cfg ∧ KeepsRegistry s u ∧ KeepsFault s u ∧ Answered s u .done .empty

/-- ADVANCE in a state whose count exceeds the buffer: the slice RXBUF[n : RXLEN] is not defined (R9) and the model stops. The
invariant of R120 says no run reaches such a state. -/
def Obligations.AdvanceBeyondTheBufferStops : Prop :=
  ∀ (s : State) (r : Result), s.fault = .noFault → s.res = some r → s.rxbuf.length < (consumed r).toNat →
    exec .advance s = .fault .sliceOutOfRange

/-- ENCODE (R95) in every state: always DONE, the answer a function of T, body and LEN_LIMIT alone, nothing of the block changes. -/
def Obligations.EncodeAnswersAndChangesNothing : Prop :=
  ∀ (s : State) (t : Byte) (body : Bytes),
    (t = 0 → ∃ u, exec (.encode t body) s = .next u ∧ KeepsAll s u ∧ Answered s u .done (.encoded .invalidMessageType)) ∧
    (t ≠ 0 → s.cfg.lenLimit < body.length + 19 →
      ∃ u, exec (.encode t body) s = .next u ∧ KeepsAll s u ∧ Answered s u .done (.encoded .invalidLength)) ∧
    (t ≠ 0 → body.length + 19 ≤ s.cfg.lenLimit →
      ∃ u out, exec (.encode t body) s = .next u ∧ KeepsAll s u ∧ encodeHeader s.cfg.lenLimit t body = .bytes out ∧
        Answered s u .done (.encoded (.ok out)))

/-! ### The messages -/

/-- OPEN, UPDATE, NOTIFICATION, KEEPALIVE (R113 to R116) at the front of a framing block, the length in range, the body complete, the
type registered: the message is delivered with its tag, consumed = length, and latched with its header as FRAME does (R110, R119). That
exec of a message row is the FRAME that finds it is the model's reading (log entry 9, DEDUCED). -/
def Obligations.NamedMessagesAreDelivered : Prop :=
  ∀ (s : State) (i : Instr) (h : Header) (tag : Tag),
    (i, h, tag) ∈ [(.openMsg h.length, ⟨h.length, 1⟩, .openTag), (.updateMsg h.length, ⟨h.length, 2⟩, .updateTag),
      (.notificationMsg h.length, ⟨h.length, 3⟩, .notificationTag), (.keepaliveMsg h.length, ⟨h.length, 4⟩, .keepAliveTag)] →
    Framing s → frontHeader s.rxbuf = some h → lengthLegal s.cfg.lenLimit h.length = true →
    h.length.toNat ≤ s.rxbuf.length → registered s.regMap h.type = true →
      ∃ u m, exec i s = .next u ∧ m = ⟨h.type, h.length, (s.rxbuf.take h.length.toNat).drop 19⟩ ∧ tagOf m = tag ∧
        u.hdr = some h ∧ u.res = some (.msg m h.length) ∧
        u.cfg = s.cfg ∧ KeepsStream s u ∧ KeepsRegistry s u ∧ KeepsFault s u ∧ Answered s u .done (.framed u.hdr u.res)

/-- REGISTERED_OTHER (R117): a registered type outside 0..4 is delivered with tag Unknown (R111), and latched with its header as FRAME
does (R110, R119). That exec of a message row is the FRAME that finds it is the model's reading (log entry 9, DEDUCED). -/
def Obligations.OtherRegisteredTypesAreDelivered : Prop :=
  ∀ (s : State) (t : Byte) (length : Half),
    Framing s → frontHeader s.rxbuf = some ⟨length, t⟩ → lengthLegal s.cfg.lenLimit length = true →
    length.toNat ≤ s.rxbuf.length → registered s.regMap t = true → 5 ≤ t.toNat →
      ∃ u m, exec (.registeredOther t length) s = .next u ∧
        m = ⟨t, length, (s.rxbuf.take length.toNat).drop 19⟩ ∧ tagOf m = .unknownTag ∧
        u.hdr = some ⟨length, t⟩ ∧ u.res = some (.msg m length) ∧
        u.cfg = s.cfg ∧ KeepsStream s u ∧ KeepsRegistry s u ∧ KeepsFault s u ∧ Answered s u .done (.framed u.hdr u.res)

/-- UNRECOGNIZED (R77): a well-framed message of a type that is not registered gives SKIP(length), and so does every message
instruction whose type the registry does not hold (R110 step 5, R119). That exec of a message row is the FRAME that finds it is the
model's reading (log entry 9, DEDUCED). -/
def Obligations.UnregisteredTypesAreSkipped : Prop :=
  ∀ (s : State) (i : Instr) (h : Header), AtFront i h s → lengthLegal s.cfg.lenLimit h.length = true →
    h.length.toNat ≤ s.rxbuf.length → registered s.regMap h.type = false →
      ∃ u, exec i s = .next u ∧ u.hdr = some h ∧ u.res = some (.skip h.length) ∧
        u.cfg = s.cfg ∧ KeepsStream s u ∧ KeepsRegistry s u ∧ KeepsFault s u ∧ Answered s u .done (.framed u.hdr u.res)

/-- Every message instruction with an incomplete body waits (R110 step 4, R119, R167): HDR holds the header, RES is NEED_MORE. That exec
of a message row is the FRAME that finds it is the model's reading (log entry 9, DEDUCED). -/
def Obligations.IncompleteMessagesWait : Prop :=
  ∀ (s : State) (i : Instr) (h : Header), AtFront i h s → lengthLegal s.cfg.lenLimit h.length = true →
    s.rxbuf.length < h.length.toNat →
      ∃ u, exec i s = .next u ∧ u.hdr = some h ∧ u.res = some .needMore ∧
        u.cfg = s.cfg ∧ KeepsStream s u ∧ KeepsRegistry s u ∧ KeepsFault s u ∧ Answered s u .done (.framed u.hdr u.res)

/-- Every message instruction with a length out of range enters the stream fault INVALID_LENGTH (R163, R168). The payload of the FAULTED
answer is the model's choice (log entry 3, DESIGN CHOICE); that exec of a message row is the FRAME that finds it is the model's reading
(log entry 9, DEDUCED). -/
def Obligations.IllegalLengthsFaultTheStream : Prop :=
  ∀ (s : State) (i : Instr) (h : Header), AtFront i h s →
    (h.length.toNat < 19 ∨ s.cfg.lenLimit < h.length.toNat) →
      ∃ u, exec i s = .next u ∧ u.fault = .invalidLength ∧ u.faultPos = some s.pos ∧ u.hdr = some h ∧ u.res = none ∧
        u.cfg = s.cfg ∧ KeepsStream s u ∧ KeepsRegistry s u ∧ Answered s u .faulted (.framed (some h) none)

/-- A message instruction run on a buffer that does not begin with its header is refused by the model: the decoder has no behaviour on
a frame that does not match (R112, U6; log entry 9). No step does that. -/
def Obligations.MismatchedMessagesHaveNoMeaning : Prop :=
  ∀ (s : State) (i : Instr) (h : Header), messageHeader i = some h → Framing s → frontHeader s.rxbuf ≠ some h →
    exec i s = .refused .messageNotAtFront

/-! ### Refusals and faults -/

/-- The refused commands (R173), no fault latched: each leaves the whole state unchanged and answers REFUSED. The payload of the REFUSED
answer of FRAME is the model's choice (log entry 3, DESIGN CHOICE); that a message row is refused with the FRAME that executes it is the
model's reading (log entry 9, DEDUCED). -/
def Obligations.RefusalsLeaveTheStateUnchanged : Prop :=
  ∀ s : State, s.fault = .noFault →
    (∀ t, s.phase = .run ∨ t = 0 →
      ∃ u, exec (.registerType t) s = .next u ∧ KeepsAll s u ∧ Answered s u .refused .empty) ∧
    (s.phase = .run → ∃ u, exec .sealRegistry s = .next u ∧ KeepsAll s u ∧ Answered s u .refused .empty) ∧
    (∀ i, s.phase = .init → i = .frame ∨ messageHeader i ≠ none →
      ∃ u, exec i s = .next u ∧ KeepsAll s u ∧ Answered s u .refused (.framed s.hdr s.res)) ∧
    (s.res = none → ∃ u, exec .advance s = .next u ∧ KeepsAll s u ∧ Answered s u .refused .empty) ∧
    (∀ d, s.cfg.bufCap < s.rxbuf.length + d.length →
      ∃ u, exec (.append d) s = .next u ∧ KeepsAll s u ∧ Answered s u .refused .empty) ∧
    (∀ w q, s.port = .command w :: q → w.cmd.toNat = 0 ∨ 8 ≤ w.cmd.toNat →
      ∃ u, step s = .next u ∧ KeepsAll s u ∧ Answered s u .refused .empty)

/-- The faulted state (R169): every command but ENCODE changes nothing and answers FAULTED; ENCODE answers what it answers without a
fault (R95); reserved codes answer REFUSED (R143); reset is taken and clears FAULT and FAULT_POS (R142); the state is neither clean nor
pending (R199). That a message row answers FAULTED with the FRAME that executes it is the model's reading (log entry 9, DEDUCED). -/
def Obligations.FaultedStateAnswersFaulted : Prop :=
  ∀ s : State, s.fault ≠ .noFault →
    (∀ i, (∀ t body, i ≠ .encode t body) → ∃ u p, exec i s = .next u ∧ KeepsAll s u ∧ Answered s u .faulted p) ∧
    (∀ t body, ∃ u v, exec (.encode t body) s = .next u ∧ KeepsAll s u ∧
      exec (.encode t body) { s with fault := .noFault, faultPos := none } = .next v ∧ u.rsp = v.rsp) ∧
    (∀ w q, s.port = .command w :: q → w.cmd.toNat = 0 ∨ 8 ≤ w.cmd.toNat →
      ∃ u, step s = .next u ∧ KeepsAll s u ∧ Answered s u .refused .empty) ∧
    (∀ q, s.port = .reset :: q → ∃ u, step s = .next u ∧ u.fault = .noFault ∧ u.faultPos = none) ∧
    s.clean = false ∧ s.pending = false

/-- Entering a stream fault (R168), whatever the instruction: FAULT_POS is POS, RES is empty, HDR is empty or the header with the bad
length, RXBUF, POS, PHASE and REG_MAP are unchanged, the answer is FAULTED; and only a bad marker or a bad length is a cause (R166). A
message row does so as the FRAME that executes it (log entry 9, DEDUCED). -/
def Obligations.StreamFaultEntry : Prop :=
  ∀ (i : Instr) (s t : State), exec i s = .next t → s.fault = .noFault → t.fault ≠ .noFault →
    t.faultPos = some s.pos ∧ t.res = none ∧ t.cfg = s.cfg ∧ KeepsStream s t ∧ KeepsRegistry s t ∧
    (∃ p, Answered s t .faulted p) ∧
    (t.fault = .invalidMarker → t.hdr = none ∧ decodeHeader s.rxbuf = .invalidMarker) ∧
    (t.fault = .invalidLength → ∃ h, t.hdr = some h ∧ decodeHeader s.rxbuf = .header h ∧
      (h.length.toNat < 19 ∨ s.cfg.lenLimit < h.length.toNat))

/-- Only reset leaves the faulted state (R30, R171): any other step from it leaves every piece of state unchanged. -/
def Obligations.OnlyResetClearsAFault : Prop :=
  ∀ s t : State, step s = .next t → s.fault ≠ .noFault → NotResetNext s → KeepsAll s t

/-! ### The whole machine -/

/-- Every step keeps the invariant. -/
def Obligations.EveryStepKeepsTheInvariant : Prop :=
  ∀ s t : State, s.Inv → step s = .next t → t.Inv

/-- The invariant holds at reset, for every configuration that meets R187, and at State.reset. -/
def Obligations.ResetMeetsTheInvariant : Prop :=
  (∀ (c : Config) (q : List HostInput), c.Wf → (State.atReset c q).Inv) ∧ State.reset.Inv

/-- No step stops in a state of the invariant: every command in every such state has a response. -/
def Obligations.EveryStepAnswers : Prop :=
  ∀ s : State, s.Inv → ∃ t, step s = .next t ∧ (∀ w q, s.port = .command w :: q → t.rsp ≠ none)

/-- PHASE goes from INIT to RUN by SEAL alone and back by reset alone, and REG_MAP is constant in RUN (R28, R29). -/
def Obligations.RegistryIsFixedInRun : Prop :=
  ∀ s t : State, step s = .next t → NotResetNext s →
    (s.phase = .run → t.phase = .run ∧ t.regMap = s.regMap) ∧
    (t.phase ≠ s.phase → CommandNext s .sealRegistry) ∧
    (t.regMap ≠ s.regMap → ∃ b, CommandNext s (.registerType b))

/-- No step changes the configuration, reset included (R32). -/
def Obligations.ConfigurationNeverChanges : Prop :=
  ∀ s t : State, step s = .next t → t.cfg = s.cfg

/-- The stream is conserved (R21, R24, R57): in any step but reset, the bytes that were buffered and the bytes an APPEND brought are, in
the same order, the bytes an ADVANCE dropped and the bytes buffered after it; POS moves by the number dropped. -/
def Obligations.StreamBytesAreConserved : Prop :=
  ∀ s t : State, step s = .next t → NotResetNext s → s.pos < 2 ^ s.cfg.wPos →
    ∃ brought dropped : Bytes, s.rxbuf ++ brought = dropped ++ t.rxbuf ∧
      t.pos = (s.pos + dropped.length) % 2 ^ s.cfg.wPos ∧
      (brought ≠ [] → CommandNext s (.append brought)) ∧
      (dropped ≠ [] → CommandNext s .advance)

/-- PEEK and FRAME are idempotent (R56): issued again at once, the second leaves every piece of state as the first left it. -/
def Obligations.PeekAndFrameAreIdempotent : Prop :=
  ∀ (i : Instr) (s t : State), i = .peek ∨ i = .frame → exec i s = .next t →
    ∃ u, exec i t = .next u ∧ KeepsAll t u

/-- A latched SKIP or MSG is never out of date (R63 (a)): whatever is appended after the FRAME that latched it, another FRAME latches the
same RES. -/
def Obligations.LatchedResultsStayCurrent : Prop :=
  ∀ (s : State) (r : Result) (data : Bytes), s.Inv → s.res = some r → r ≠ .needMore →
    s.rxbuf.length + data.length ≤ s.cfg.bufCap →
      ∃ u v, exec (.append data) s = .next u ∧ u.res = some r ∧ exec .frame u = .next v ∧ v.res = some r

/-- FRAME never says wait while APPEND says full (R195). -/
def Obligations.NoDeadlockWhenTheBufferIsFull : Prop :=
  ∀ s t : State, s.cfg.lenLimit ≤ s.cfg.bufCap → Framing s → exec .frame s = .next t →
    (t.res = some .needMore → rxReady t = true) ∧
    (s.rxbuf.length = s.cfg.bufCap →
      t.fault ≠ .noFault ∨ (∃ n, t.res = some (.skip n)) ∨ ∃ m n, t.res = some (.msg m n))

/-- RX_READY (R27) tells that an APPEND of one byte would be accepted. -/
def Obligations.ReadyMeansOneByteIsAccepted : Prop :=
  ∀ (s : State) (b : Byte), ∃ u, exec (.append [b]) s = .next u ∧
    (rxReady s = true → u.rxbuf = s.rxbuf ++ [b] ∧ Answered s u .done .empty) ∧
    (rxReady s = false → KeepsAll s u ∧ u.rsp ≠ some ⟨.done, .empty⟩)

/-- DRAIN (R200, and R123's stream law for a buffer wholly appended): on a framing block whose buffer holds well-framed messages and
then `rest`, repeated STEPs deliver or skip each message in order, remove exactly those bytes and leave `rest`; and where `rest` awaits
more bytes, the next FRAME answers NEED_MORE. -/
def Obligations.DrainDeliversEveryMessageInOrder : Prop :=
  ∀ (s : State) (ms : List (Byte × Bytes)) (rest : Bytes) (q : List HostInput),
    Framing s → s.pos < 2 ^ s.cfg.wPos → s.rxbuf = wireStream ms ++ rest →
    (∀ m ∈ ms, m.2.length + 19 ≤ s.cfg.lenLimit) →
    s.port = asmSteps ms.length ++ inFrame :: q →
      (∀ (k : Nat) (hk : k < ms.length), ∃ u, runSteps (2 * k + 1) s = .next u ∧
        u.fault = .noFault ∧ u.res = some (resultFor s.regMap ms[k])) ∧
      (∃ t, runSteps (2 * ms.length) s = .next t ∧ t.fault = .noFault ∧ t.rxbuf = rest ∧
        t.pos = (s.pos + (wireStream ms).length) % 2 ^ s.cfg.wPos ∧ KeepsRegistry s t ∧ t.cfg = s.cfg ∧
        t.port = inFrame :: q) ∧
      (awaitsMore s.cfg.lenLimit rest →
        ∃ v, runSteps (2 * ms.length + 1) s = .next v ∧ v.fault = .noFault ∧ v.res = some .needMore ∧ v.rxbuf = rest)

/-- The stream law (R123, R199): in any run without reset from a sealed state of the invariant, whatever the chunks and whatever
commands are interleaved, the bytes buffered at the start and the bytes accepted are whole messages of legal length followed by what is
buffered at the end; the Results consumed are those messages' Results, in order; POS has moved by the messages' bytes; and at a clean
end every byte belongs to a consumed message. -/
def Obligations.ConsumedResultsAreTheStreamsMessages : Prop :=
  ∀ (k : Nat) (s t : State), s.Inv → s.phase = .run → HostInput.reset ∉ s.port.take k → runSteps k s = .next t →
    ∃ ms : List (Byte × Bytes), s.rxbuf ++ accepted k s = wireStream ms ++ t.rxbuf ∧
      (∀ m ∈ ms, m.2.length + 19 ≤ s.cfg.lenLimit) ∧
      delivered k s = ms.map (resultFor s.regMap) ∧
      t.pos = (s.pos + (wireStream ms).length) % 2 ^ s.cfg.wPos ∧
      (t.clean = true → s.rxbuf ++ accepted k s = wireStream ms)

/-- The chunking does not matter (R123): two runs without reset from sealed states with the same registry and configuration, nothing
buffered and nothing latched, that accept the same bytes and end with nothing buffered, consume the same Results in the same order. -/
def Obligations.ResultsDoNotDependOnTheChunking : Prop :=
  ∀ (k l : Nat) (s s' t t' : State), s.Inv → s'.Inv → s.phase = .run → s'.phase = .run →
    s.regMap = s'.regMap → s.cfg = s'.cfg → s.rxbuf = [] → s'.rxbuf = [] →
    HostInput.reset ∉ s.port.take k → HostInput.reset ∉ s'.port.take l →
    runSteps k s = .next t → runSteps l s' = .next t' → t.rxbuf = [] → t'.rxbuf = [] →
    accepted k s = accepted l s' → delivered k s = delivered l s'
end

