-- ==== Sys2Proof/Laws/Codec.lean ====
section
/-! SUPPORT. Laws of the pure functions: byte order, the registry, decode_header, decode_stub, read_message. Each function has one
lemma per outcome, which later proofs cite instead of unfolding it. -/
namespace Sys2Proof

/-! ### Byte order -/

theorem be16_toNat (a b : Byte) : (be16 a b).toNat = a.toNat * 256 + b.toNat := by
  have := a.isLt; have := b.isLt
  simp [be16]; omega

theorem hi8_toNat (v : Half) : (hi8 v).toNat = v.toNat / 256 := by
  have := v.isLt
  simp [hi8, BitVec.extractLsb'_toNat, Nat.shiftRight_eq_div_pow]; omega

theorem lo8_toNat (v : Half) : (lo8 v).toNat = v.toNat % 256 := by
  simp [lo8, BitVec.extractLsb'_toNat]

/-- The two bytes of a length, put together again, are the length (R50, R72). -/
@[simp] theorem be16_hi8_lo8 (v : Half) : be16 (hi8 v) (lo8 v) = v := by
  apply BitVec.eq_of_toNat_eq
  rw [be16_toNat, hi8_toNat, lo8_toNat]; omega

theorem hi8_be16 (a b : Byte) : hi8 (be16 a b) = a := by
  have := a.isLt; have := b.isLt
  apply BitVec.eq_of_toNat_eq
  rw [hi8_toNat, be16_toNat]; omega

theorem lo8_be16 (a b : Byte) : lo8 (be16 a b) = b := by
  have := a.isLt; have := b.isLt
  apply BitVec.eq_of_toNat_eq
  rw [lo8_toNat, be16_toNat]; omega

@[simp] theorem marker_length : marker.length = 16 := by simp [marker]

@[simp] theorem headerBytes_length (h : Header) : (headerBytes h).length = 19 := by simp [headerBytes]

/-! ### The registry -/

/-- REG_MAP[0] reads as 0 (R29). -/
@[simp] theorem registered_nil (reg : RegMap) : registered reg 0#8 = false := by simp [registered]

theorem registered_ne_nil {reg : RegMap} {t : Byte} (h : registered reg t = true) : t ≠ 0#8 := by
  rintro rfl
  rw [registered_nil] at h
  cases h

theorem toNat_ne_zero_of_ne {t : Byte} (h : t ≠ 0#8) : t.toNat ≠ 0 :=
  fun e => h (BitVec.eq_of_toNat_eq (by simpa using e))

theorem registered_of_ne {reg : RegMap} {t : Byte} (h : t ≠ 0#8) : registered reg t = reg.getLsbD t.toNat := by
  simp [registered, h]

theorem addType_of_ne {reg : RegMap} {t : Byte} (h : t ≠ 0#8) : addType reg t = reg ||| BitVec.twoPow 256 t.toNat := by
  simp [addType, h]

/-- Adding a type registers it and no other (R140). -/
theorem registered_addType (reg : RegMap) {t : Byte} (u : Byte) (ht : t ≠ 0#8) :
    registered (addType reg t) u = (registered reg u || u == t) := by
  by_cases hu : u = 0#8
  · subst hu
    have : (0#8 == t) = false := by simpa using fun e => ht e.symm
    rw [registered_nil, registered_nil, this]; rfl
  · rw [registered_of_ne hu, registered_of_ne hu, addType_of_ne ht, BitVec.getLsbD_or, BitVec.getLsbD_twoPow]
    have hlt : t.toNat < 256 := t.isLt
    by_cases e : u = t
    · subst e; simp [hlt]
    · have : t.toNat ≠ u.toNat := fun h => e (BitVec.eq_of_toNat_eq h.symm)
      simp [this, e]

/-- Bit 0 takes no write (R29). -/
theorem addType_bit0 (reg : RegMap) (t : Byte) (h : reg.getLsbD 0 = false) : (addType reg t).getLsbD 0 = false := by
  by_cases h0 : t = 0#8
  · subst h0; exact h
  · rw [addType_of_ne h0, BitVec.getLsbD_or, BitVec.getLsbD_twoPow, h]
    simp [toNat_ne_zero_of_ne h0]

theorem resetRegistry_bit0 (c : Config) : (resetRegistry c).getLsbD 0 = false := by
  rw [resetRegistry, BitVec.getLsbD_and, BitVec.getLsbD_not, BitVec.getLsbD_twoPow]
  simp

/-- After reset exactly the types of REG_RESET are registered (R142). -/
theorem registered_resetRegistry (c : Config) {t : Byte} (ht : t ≠ 0#8) :
    registered (resetRegistry c) t = c.regReset.getLsbD t.toNat := by
  have h256 : t.toNat < 256 := t.isLt
  have := toNat_ne_zero_of_ne ht
  rw [registered_of_ne ht, resetRegistry, BitVec.getLsbD_and, BitVec.getLsbD_not, BitVec.getLsbD_twoPow]
  have h0 : ¬ 0 = t.toNat := fun e => this e.symm
  simp [h256, h0]

/-! ### decode_header -/

theorem decodeHeader_short {buf : Bytes} (h : buf.length < 19) : decodeHeader buf = .incomplete := by
  simp [decodeHeader, h]

theorem decodeHeader_badMarker {buf : Bytes} (h : 19 ≤ buf.length) (hm : buf.take 16 ≠ marker) :
    decodeHeader buf = .invalidMarker := by
  have : ¬ buf.length < 19 := by omega
  simp [decodeHeader, this, hm]

/-- A header followed by any bytes decodes to that header (R92, R94). -/
@[simp] theorem decodeHeader_headerBytes (h : Header) (rest : Bytes) :
    decodeHeader (headerBytes h ++ rest) = .header h := by
  have hlen : (headerBytes h ++ rest).length = 19 + rest.length := by simp
  have htake : (headerBytes h ++ rest).take 16 = marker := by
    simp [headerBytes]
  unfold decodeHeader
  rw [dif_neg (by simp), if_neg (by simpa using htake)]
  simp [headerBytes, marker]

/-- A buffer decodes to a header exactly when it begins with that header's bytes (R70, R92). -/
theorem decodeHeader_eq_header {buf : Bytes} {h : Header} :
    decodeHeader buf = .header h ↔ ∃ rest, buf = headerBytes h ++ rest := by
  constructor
  · intro hd
    unfold decodeHeader at hd
    split at hd
    · cases hd
    · rename_i hs
      split at hd
      · cases hd
      · rename_i hm
        simp only [headerLen, markerLen, ne_eq, not_not, Nat.not_lt] at hs hm
        refine ⟨buf.drop 19, ?_⟩
        injection hd with hd
        subst hd
        have e : buf = buf.take 16 ++ (buf.drop 16) := (List.take_append_drop 16 buf).symm
        have d16 : buf.drop 16 = buf[16] :: buf[17] :: buf[18] :: buf.drop 19 := by
          rw [List.drop_eq_getElem_cons (by omega), List.drop_eq_getElem_cons (by omega),
            List.drop_eq_getElem_cons (by omega)]
        rw [hm, d16] at e
        simp only [headerBytes, hi8_be16, lo8_be16, List.append_assoc, List.cons_append, List.nil_append]
        exact e
  · rintro ⟨rest, rfl⟩
    exact decodeHeader_headerBytes h rest

theorem decodeHeader_invalidMarker {buf : Bytes} :
    decodeHeader buf = .invalidMarker ↔ 19 ≤ buf.length ∧ buf.take 16 ≠ marker := by
  constructor
  · intro h
    by_cases hs : buf.length < 19
    · rw [decodeHeader_short hs] at h; cases h
    · refine ⟨by omega, fun hm => ?_⟩
      simp [decodeHeader, hs, hm] at h
  · rintro ⟨h1, h2⟩; exact decodeHeader_badMarker h1 h2

theorem decodeHeader_incomplete {buf : Bytes} : decodeHeader buf = .incomplete ↔ buf.length < 19 := by
  constructor
  · intro h
    by_contra hs
    by_cases hm : buf.take 16 = marker
    · simp [decodeHeader, hs, hm] at h
    · rw [decodeHeader_badMarker (by omega) hm] at h; cases h
  · exact decodeHeader_short

/-- Once 19 bytes are there, later bytes do not matter (R92 corner case ii). -/
theorem decodeHeader_append {buf : Bytes} (rest : Bytes) (h : 19 ≤ buf.length) :
    decodeHeader (buf ++ rest) = decodeHeader buf := by
  by_cases hm : buf.take 16 = marker
  · cases hd : decodeHeader buf with
    | incomplete => have := decodeHeader_incomplete.1 hd; omega
    | invalidMarker => exact absurd hm (decodeHeader_invalidMarker.1 hd).2
    | header x =>
      obtain ⟨r, rfl⟩ := decodeHeader_eq_header.1 hd
      rw [List.append_assoc, decodeHeader_headerBytes]
  · have h' : (buf ++ rest).take 16 ≠ marker := by
      rw [List.take_append_of_le_length (by omega)]; exact hm
    rw [decodeHeader_badMarker h hm, decodeHeader_badMarker (by simp; omega) h']

/-- decode_header reads the first 19 bytes only (R122). -/
theorem decodeHeader_take {buf : Bytes} {n : Nat} (h : 19 ≤ n) : decodeHeader (buf.take n) = decodeHeader buf := by
  by_cases hs : buf.length < 19
  · rw [decodeHeader_short hs, decodeHeader_short (by simp; omega)]
  · have := decodeHeader_append (buf := buf.take n) (buf.drop n) (by simp; omega)
    rw [List.take_append_drop] at this
    exact this.symm

/-! ### The header at the front -/

namespace Machine

theorem frontHeader_eq_some {buf : Bytes} {h : Header} : frontHeader buf = some h ↔ decodeHeader buf = .header h := by
  unfold frontHeader
  cases decodeHeader buf <;> simp

theorem frontHeader_of_header {buf : Bytes} {h : Header} (hd : decodeHeader buf = .header h) : frontHeader buf = some h :=
  frontHeader_eq_some.2 hd

theorem frontHeader_short {buf : Bytes} (h : buf.length < 19) : frontHeader buf = none := by
  simp [frontHeader, decodeHeader_short h]

theorem frontHeader_append {buf : Bytes} {h : Header} (rest : Bytes) (hf : frontHeader buf = some h) :
    frontHeader (buf ++ rest) = some h := by
  obtain ⟨r, rfl⟩ := decodeHeader_eq_header.1 (frontHeader_eq_some.1 hf)
  rw [List.append_assoc, frontHeader_eq_some, decodeHeader_headerBytes]

end Machine

/-! ### The length range -/

theorem lengthLegal_iff {limit : Nat} {l : Half} : lengthLegal limit l = true ↔ 19 ≤ l.toNat ∧ l.toNat ≤ limit := by
  simp only [lengthLegal, headerLen, Bool.and_eq_true, decide_eq_true_eq]

theorem lengthLegal_eq_false {limit : Nat} {l : Half} : lengthLegal limit l = false ↔ l.toNat < 19 ∨ limit < l.toNat := by
  rw [← Bool.not_eq_true, lengthLegal_iff]; omega

theorem lenLimit_cases (c : Config) : c.lenLimit = 4096 ∨ c.lenLimit = 65535 := by
  unfold Config.lenLimit; cases c.enforceMax <;> simp

/-! ### decode_stub -/

/-- decode_stub on a frame that is header and body (R112). -/
theorem decodeStub_frame (h : Header) (frame : Bytes) (hd : decodeHeader frame = .header h)
    (hl : frame.length = h.length.toNat) : decodeStub h.type frame = some ⟨h.type, h.length, frame.drop 19⟩ := by
  obtain ⟨rest, rfl⟩ := decodeHeader_eq_header.1 hd
  have h19 : 19 ≤ h.length.toNat := by rw [← hl]; simp
  have hl' : 19 + rest.length = h.length.toNat := by rw [← hl]; simp
  have : List.take h.length.toNat (headerBytes h ++ rest) = headerBytes h ++ rest :=
    List.take_of_length_le (by rw [hl])
  simp [decodeStub, Machine.slice, h19, hl', this]

/-! ### read_message -/

theorem readMessage_short {limit : Nat} {reg : RegMap} {buf : Bytes} (h : buf.length < 19) :
    readMessage limit reg buf = .returns none 0 := by
  simp [readMessage, h]

/-- read_message once 19 bytes are there: its steps 2 to 6 (R110). -/
theorem readMessage_of_header {limit : Nat} {reg : RegMap} {buf : Bytes} {h : Header} (hd : decodeHeader buf = .header h) :
    readMessage limit reg buf =
      if lengthLegal limit h.length = false then .invalidLength h.length
      else if buf.length < h.length.toNat then .returns none 0
      else if registered reg h.type = false then .returns none h.length
      else .returns (some ⟨h.type, h.length, (buf.take h.length.toNat).drop 19⟩) h.length := by
  have hs : ¬ buf.length < 19 := fun hs => by rw [decodeHeader_short hs] at hd; cases hd
  unfold readMessage
  rw [if_neg (by simpa using hs), decodeHeader_take (by simp), hd]
  simp only
  split
  · rfl
  · rename_i hleg
    simp only [Bool.not_eq_false] at hleg
    split
    · rfl
    · rename_i hlen
      split
      · rfl
      · rw [decodeStub_frame h (buf.take h.length.toNat)]
        · rw [decodeHeader_take (lengthLegal_iff.1 hleg).1, hd]
        · simp; omega

theorem readMessage_badMarker {limit : Nat} {reg : RegMap} {buf : Bytes} (hd : decodeHeader buf = .invalidMarker) :
    readMessage limit reg buf = .invalidMarker := by
  have hs := (decodeHeader_invalidMarker.1 hd).1
  unfold readMessage
  rw [if_neg (by simp; omega), decodeHeader_take (by simp), hd]

/-- Everything read_message can answer, with what each answer means (R110). -/
theorem readMessage_cases (limit : Nat) (reg : RegMap) (buf : Bytes) :
    (buf.length < 19 ∧ readMessage limit reg buf = .returns none 0) ∨
    (decodeHeader buf = .invalidMarker ∧ readMessage limit reg buf = .invalidMarker) ∨
    ∃ h, decodeHeader buf = .header h ∧
      ((lengthLegal limit h.length = false ∧ readMessage limit reg buf = .invalidLength h.length) ∨
       (lengthLegal limit h.length = true ∧ buf.length < h.length.toNat ∧ readMessage limit reg buf = .returns none 0) ∨
       (lengthLegal limit h.length = true ∧ h.length.toNat ≤ buf.length ∧ registered reg h.type = false ∧
         readMessage limit reg buf = .returns none h.length) ∨
       (lengthLegal limit h.length = true ∧ h.length.toNat ≤ buf.length ∧ registered reg h.type = true ∧
         readMessage limit reg buf =
           .returns (some ⟨h.type, h.length, (buf.take h.length.toNat).drop 19⟩) h.length)) := by
  cases hd : decodeHeader buf with
  | incomplete => exact .inl ⟨decodeHeader_incomplete.1 hd, readMessage_short (decodeHeader_incomplete.1 hd)⟩
  | invalidMarker => exact .inr (.inl ⟨rfl, readMessage_badMarker hd⟩)
  | header h =>
    refine .inr (.inr ⟨h, rfl, ?_⟩)
    rw [readMessage_of_header hd]
    cases hl : lengthLegal limit h.length
    · simp
    · by_cases hb : buf.length < h.length.toNat
      · simp [hb]
      · cases hr : registered reg h.type
        · simp [hb]; omega
        · simp [hb]; omega

/-- The decoder's precondition always holds when read_message calls it (R112). -/
theorem readMessage_ne_stubMismatch (limit : Nat) (reg : RegMap) (buf : Bytes) :
    readMessage limit reg buf ≠ .stubMismatch := by
  rcases readMessage_cases limit reg buf with ⟨_, h⟩ | ⟨_, h⟩ | ⟨_, _, ⟨_, h⟩ | ⟨_, _, h⟩ | ⟨_, _, _, h⟩ | ⟨_, _, _, h⟩⟩ <;>
    simp [h]

end Sys2Proof
end

