-- ==== Sys2Proof/Laws/Memory.lean ====
section
/-! SUPPORT. Laws of the receive buffer (20_memory.md R54, R57): its view as cells is in one canonical form, a store at the tail
leaves every byte where it was, dropping from the front moves every offset by the same count, and every operation keeps the buffer
within its capacity. -/
namespace Sys2Proof.Machine

/-- Addresses rise strictly: the cells of a buffer are in one canonical form. -/
theorem Memory.cells_rising (buf : Bytes) : (Memory.cells buf).Pairwise (fun a b => a.1 < b.1) := by
  have : (Memory.cells buf).map Prod.fst = List.range' 0 buf.length := by
    simp [Memory.cells, Function.comp_def, List.zipIdx_map_snd]
  have h := List.pairwise_lt_range' (s := 0) (n := buf.length) (step := 1)
  rw [← this, List.pairwise_map] at h
  exact h

/-- A cell of a buffer is the byte read at its address. -/
theorem Memory.mem_cells (buf : Bytes) (a : Nat) (b : Byte) : (a, b) ∈ Memory.cells buf ↔ readByte buf a = some b := by
  simp [Memory.cells, readByte, List.mk_mem_zipIdx_iff_getElem?]

/-- MemWrite leaves every byte below RXLEN where it was (R57). -/
theorem readByte_memWrite_old {buf v : Bytes} {a : Nat} (h : a < buf.length) :
    readByte (memWrite buf v) a = readByte buf a := by
  simp [readByte, memWrite, List.getElem?_append_left h]

/-- MemWrite puts its bytes at RXLEN and on (R118). -/
theorem readByte_memWrite_new (buf v : Bytes) (i : Nat) : readByte (memWrite buf v) (buf.length + i) = readByte v i := by
  simp [readByte, memWrite, List.getElem?_append_right]

/-- Dropping n bytes moves the byte at offset n + i to offset i (R120). -/
theorem readByte_drop (buf : Bytes) (n i : Nat) : readByte (buf.drop n) i = readByte buf (n + i) := by
  simp [readByte]

theorem slice_eq_some {buf : Bytes} {a b : Nat} (h1 : a ≤ b) (h2 : b ≤ buf.length) :
    slice buf a b = some ((buf.take b).drop a) := by
  simp [slice, h1, h2]

/-- The slice ADVANCE keeps: everything from offset n on (R120). -/
theorem slice_to_end {buf : Bytes} {n : Nat} (h : n ≤ buf.length) : slice buf n buf.length = some (buf.drop n) := by
  simp [slice, h]

theorem slice_to_end_none {buf : Bytes} {n : Nat} (h : buf.length < n) : slice buf n buf.length = none := by
  simp [slice]; omega

theorem Memory.wf_memWrite {cap : Nat} {buf v : Bytes} (h : buf.length + v.length ≤ cap) :
    Memory.wf cap (memWrite buf v) := by
  simp [Memory.wf, memWrite, h]

theorem Memory.wf_drop {cap : Nat} {buf : Bytes} (n : Nat) (h : Memory.wf cap buf) : Memory.wf cap (buf.drop n) := by
  simp only [Memory.wf, List.length_drop] at h ⊢; omega

/-- The empty buffer of reset is well-formed (R37). -/
theorem Memory.wf_nil (cap : Nat) : Memory.wf cap [] := Nat.zero_le _

theorem headerNumber_pair (a b : Byte) : headerNumber [a, b] = a.toNat * 256 + b.toNat := by
  simp [headerNumber]

/-- The length of the header at the front is `MemRead(16, 2)` and its type `MemRead(18, 1)` (R122). -/
theorem memRead_of_frontHeader {buf : Bytes} {h : Header} (hf : frontHeader buf = some h) :
    memRead buf lenOff 2 = some h.length.toNat ∧ memRead buf typeOff 1 = some h.type.toNat := by
  obtain ⟨rest, rfl⟩ := decodeHeader_eq_header.1 (frontHeader_eq_some.1 hf)
  have e : be16 (hi8 h.length) (lo8 h.length) = h.length := be16_hi8_lo8 _
  constructor
  · simp [memRead, headerBytes, marker, headerNumber, ← be16_toNat]
  · simp [memRead, headerBytes, marker, headerNumber]

end Sys2Proof.Machine
end

