-- ==== Sys2Proof/Laws/State.lean ====
section
/-! SUPPORT. One lemma per field per update of the state, each true by unfolding, so that no later proof unfolds a record
update. -/
namespace Sys2Proof.Machine

variable (s : State)

/-! ### State.respond -/
@[simp] theorem State.respond_cfg (r : Rsp) (p : Payload) : (s.respond r p).cfg = s.cfg := rfl
@[simp] theorem State.respond_rxbuf (r : Rsp) (p : Payload) : (s.respond r p).rxbuf = s.rxbuf := rfl
@[simp] theorem State.respond_hdr (r : Rsp) (p : Payload) : (s.respond r p).hdr = s.hdr := rfl
@[simp] theorem State.respond_pos (r : Rsp) (p : Payload) : (s.respond r p).pos = s.pos := rfl
@[simp] theorem State.respond_res (r : Rsp) (p : Payload) : (s.respond r p).res = s.res := rfl
@[simp] theorem State.respond_phase (r : Rsp) (p : Payload) : (s.respond r p).phase = s.phase := rfl
@[simp] theorem State.respond_regMap (r : Rsp) (p : Payload) : (s.respond r p).regMap = s.regMap := rfl
@[simp] theorem State.respond_fault (r : Rsp) (p : Payload) : (s.respond r p).fault = s.fault := rfl
@[simp] theorem State.respond_faultPos (r : Rsp) (p : Payload) : (s.respond r p).faultPos = s.faultPos := rfl
@[simp] theorem State.respond_port (r : Rsp) (p : Payload) : (s.respond r p).port = s.port.tail := rfl
@[simp] theorem State.respond_rsp (r : Rsp) (p : Payload) : (s.respond r p).rsp = some ⟨r, p⟩ := rfl

/-! ### State.respondPeek -/
@[simp] theorem State.respondPeek_cfg (r : Rsp) : (s.respondPeek r).cfg = s.cfg := rfl
@[simp] theorem State.respondPeek_rxbuf (r : Rsp) : (s.respondPeek r).rxbuf = s.rxbuf := rfl
@[simp] theorem State.respondPeek_hdr (r : Rsp) : (s.respondPeek r).hdr = s.hdr := rfl
@[simp] theorem State.respondPeek_pos (r : Rsp) : (s.respondPeek r).pos = s.pos := rfl
@[simp] theorem State.respondPeek_res (r : Rsp) : (s.respondPeek r).res = s.res := rfl
@[simp] theorem State.respondPeek_phase (r : Rsp) : (s.respondPeek r).phase = s.phase := rfl
@[simp] theorem State.respondPeek_regMap (r : Rsp) : (s.respondPeek r).regMap = s.regMap := rfl
@[simp] theorem State.respondPeek_fault (r : Rsp) : (s.respondPeek r).fault = s.fault := rfl
@[simp] theorem State.respondPeek_faultPos (r : Rsp) : (s.respondPeek r).faultPos = s.faultPos := rfl
@[simp] theorem State.respondPeek_port (r : Rsp) : (s.respondPeek r).port = s.port.tail := rfl
@[simp] theorem State.respondPeek_rsp (r : Rsp) : (s.respondPeek r).rsp = some ⟨r, .header s.hdr⟩ := rfl

/-! ### State.respondFrame -/
@[simp] theorem State.respondFrame_cfg (r : Rsp) : (s.respondFrame r).cfg = s.cfg := rfl
@[simp] theorem State.respondFrame_rxbuf (r : Rsp) : (s.respondFrame r).rxbuf = s.rxbuf := rfl
@[simp] theorem State.respondFrame_hdr (r : Rsp) : (s.respondFrame r).hdr = s.hdr := rfl
@[simp] theorem State.respondFrame_pos (r : Rsp) : (s.respondFrame r).pos = s.pos := rfl
@[simp] theorem State.respondFrame_res (r : Rsp) : (s.respondFrame r).res = s.res := rfl
@[simp] theorem State.respondFrame_phase (r : Rsp) : (s.respondFrame r).phase = s.phase := rfl
@[simp] theorem State.respondFrame_regMap (r : Rsp) : (s.respondFrame r).regMap = s.regMap := rfl
@[simp] theorem State.respondFrame_fault (r : Rsp) : (s.respondFrame r).fault = s.fault := rfl
@[simp] theorem State.respondFrame_faultPos (r : Rsp) : (s.respondFrame r).faultPos = s.faultPos := rfl
@[simp] theorem State.respondFrame_port (r : Rsp) : (s.respondFrame r).port = s.port.tail := rfl
@[simp] theorem State.respondFrame_rsp (r : Rsp) : (s.respondFrame r).rsp = some ⟨r, .framed s.hdr s.res⟩ := rfl

/-! ### State.latchHeader -/
@[simp] theorem State.latchHeader_cfg (h : Option Header) : (s.latchHeader h).cfg = s.cfg := rfl
@[simp] theorem State.latchHeader_rxbuf (h : Option Header) : (s.latchHeader h).rxbuf = s.rxbuf := rfl
@[simp] theorem State.latchHeader_hdr (h : Option Header) : (s.latchHeader h).hdr = h := rfl
@[simp] theorem State.latchHeader_pos (h : Option Header) : (s.latchHeader h).pos = s.pos := rfl
@[simp] theorem State.latchHeader_res (h : Option Header) : (s.latchHeader h).res = s.res := rfl
@[simp] theorem State.latchHeader_phase (h : Option Header) : (s.latchHeader h).phase = s.phase := rfl
@[simp] theorem State.latchHeader_regMap (h : Option Header) : (s.latchHeader h).regMap = s.regMap := rfl
@[simp] theorem State.latchHeader_fault (h : Option Header) : (s.latchHeader h).fault = s.fault := rfl
@[simp] theorem State.latchHeader_faultPos (h : Option Header) : (s.latchHeader h).faultPos = s.faultPos := rfl
@[simp] theorem State.latchHeader_port (h : Option Header) : (s.latchHeader h).port = s.port := rfl
@[simp] theorem State.latchHeader_rsp (h : Option Header) : (s.latchHeader h).rsp = s.rsp := rfl

/-! ### State.latchFrame -/
@[simp] theorem State.latchFrame_cfg (h : Option Header) (x : Option Result) : (s.latchFrame h x).cfg = s.cfg := rfl
@[simp] theorem State.latchFrame_rxbuf (h : Option Header) (x : Option Result) : (s.latchFrame h x).rxbuf = s.rxbuf := rfl
@[simp] theorem State.latchFrame_hdr (h : Option Header) (x : Option Result) : (s.latchFrame h x).hdr = h := rfl
@[simp] theorem State.latchFrame_pos (h : Option Header) (x : Option Result) : (s.latchFrame h x).pos = s.pos := rfl
@[simp] theorem State.latchFrame_res (h : Option Header) (x : Option Result) : (s.latchFrame h x).res = x := rfl
@[simp] theorem State.latchFrame_phase (h : Option Header) (x : Option Result) : (s.latchFrame h x).phase = s.phase := rfl
@[simp] theorem State.latchFrame_regMap (h : Option Header) (x : Option Result) : (s.latchFrame h x).regMap = s.regMap := rfl
@[simp] theorem State.latchFrame_fault (h : Option Header) (x : Option Result) : (s.latchFrame h x).fault = s.fault := rfl
@[simp] theorem State.latchFrame_faultPos (h : Option Header) (x : Option Result) : (s.latchFrame h x).faultPos = s.faultPos := rfl
@[simp] theorem State.latchFrame_port (h : Option Header) (x : Option Result) : (s.latchFrame h x).port = s.port := rfl
@[simp] theorem State.latchFrame_rsp (h : Option Header) (x : Option Result) : (s.latchFrame h x).rsp = s.rsp := rfl

/-! ### State.appendBytes -/
@[simp] theorem State.appendBytes_cfg (d : Bytes) : (s.appendBytes d).cfg = s.cfg := rfl
@[simp] theorem State.appendBytes_rxbuf (d : Bytes) : (s.appendBytes d).rxbuf = s.rxbuf ++ d := rfl
@[simp] theorem State.appendBytes_hdr (d : Bytes) : (s.appendBytes d).hdr = s.hdr := rfl
@[simp] theorem State.appendBytes_pos (d : Bytes) : (s.appendBytes d).pos = s.pos := rfl
@[simp] theorem State.appendBytes_res (d : Bytes) : (s.appendBytes d).res = s.res := rfl
@[simp] theorem State.appendBytes_phase (d : Bytes) : (s.appendBytes d).phase = s.phase := rfl
@[simp] theorem State.appendBytes_regMap (d : Bytes) : (s.appendBytes d).regMap = s.regMap := rfl
@[simp] theorem State.appendBytes_fault (d : Bytes) : (s.appendBytes d).fault = s.fault := rfl
@[simp] theorem State.appendBytes_faultPos (d : Bytes) : (s.appendBytes d).faultPos = s.faultPos := rfl
@[simp] theorem State.appendBytes_port (d : Bytes) : (s.appendBytes d).port = s.port := rfl
@[simp] theorem State.appendBytes_rsp (d : Bytes) : (s.appendBytes d).rsp = s.rsp := rfl

/-! ### State.consume -/
@[simp] theorem State.consume_cfg (rest : Bytes) (n : Nat) : (s.consume rest n).cfg = s.cfg := rfl
@[simp] theorem State.consume_rxbuf (rest : Bytes) (n : Nat) : (s.consume rest n).rxbuf = rest := rfl
@[simp] theorem State.consume_hdr (rest : Bytes) (n : Nat) : (s.consume rest n).hdr = none := rfl
@[simp] theorem State.consume_pos (rest : Bytes) (n : Nat) : (s.consume rest n).pos = (s.pos + n) % 2 ^ s.cfg.wPos := rfl
@[simp] theorem State.consume_res (rest : Bytes) (n : Nat) : (s.consume rest n).res = none := rfl
@[simp] theorem State.consume_phase (rest : Bytes) (n : Nat) : (s.consume rest n).phase = s.phase := rfl
@[simp] theorem State.consume_regMap (rest : Bytes) (n : Nat) : (s.consume rest n).regMap = s.regMap := rfl
@[simp] theorem State.consume_fault (rest : Bytes) (n : Nat) : (s.consume rest n).fault = s.fault := rfl
@[simp] theorem State.consume_faultPos (rest : Bytes) (n : Nat) : (s.consume rest n).faultPos = s.faultPos := rfl
@[simp] theorem State.consume_port (rest : Bytes) (n : Nat) : (s.consume rest n).port = s.port := rfl
@[simp] theorem State.consume_rsp (rest : Bytes) (n : Nat) : (s.consume rest n).rsp = s.rsp := rfl

/-! ### State.register -/
@[simp] theorem State.register_cfg (t : Byte) : (s.register t).cfg = s.cfg := rfl
@[simp] theorem State.register_rxbuf (t : Byte) : (s.register t).rxbuf = s.rxbuf := rfl
@[simp] theorem State.register_hdr (t : Byte) : (s.register t).hdr = s.hdr := rfl
@[simp] theorem State.register_pos (t : Byte) : (s.register t).pos = s.pos := rfl
@[simp] theorem State.register_res (t : Byte) : (s.register t).res = s.res := rfl
@[simp] theorem State.register_phase (t : Byte) : (s.register t).phase = s.phase := rfl
@[simp] theorem State.register_regMap (t : Byte) : (s.register t).regMap = addType s.regMap t := rfl
@[simp] theorem State.register_fault (t : Byte) : (s.register t).fault = s.fault := rfl
@[simp] theorem State.register_faultPos (t : Byte) : (s.register t).faultPos = s.faultPos := rfl
@[simp] theorem State.register_port (t : Byte) : (s.register t).port = s.port := rfl
@[simp] theorem State.register_rsp (t : Byte) : (s.register t).rsp = s.rsp := rfl

/-! ### State.closeRegistry -/
@[simp] theorem State.closeRegistry_cfg : s.closeRegistry.cfg = s.cfg := rfl
@[simp] theorem State.closeRegistry_rxbuf : s.closeRegistry.rxbuf = s.rxbuf := rfl
@[simp] theorem State.closeRegistry_hdr : s.closeRegistry.hdr = s.hdr := rfl
@[simp] theorem State.closeRegistry_pos : s.closeRegistry.pos = s.pos := rfl
@[simp] theorem State.closeRegistry_res : s.closeRegistry.res = s.res := rfl
@[simp] theorem State.closeRegistry_phase : s.closeRegistry.phase = .run := rfl
@[simp] theorem State.closeRegistry_regMap : s.closeRegistry.regMap = s.regMap := rfl
@[simp] theorem State.closeRegistry_fault : s.closeRegistry.fault = s.fault := rfl
@[simp] theorem State.closeRegistry_faultPos : s.closeRegistry.faultPos = s.faultPos := rfl
@[simp] theorem State.closeRegistry_port : s.closeRegistry.port = s.port := rfl
@[simp] theorem State.closeRegistry_rsp : s.closeRegistry.rsp = s.rsp := rfl

/-! ### State.enterStreamFault -/
@[simp] theorem State.enterStreamFault_cfg (f : StreamFault) : (s.enterStreamFault f).cfg = s.cfg := rfl
@[simp] theorem State.enterStreamFault_rxbuf (f : StreamFault) : (s.enterStreamFault f).rxbuf = s.rxbuf := rfl
@[simp] theorem State.enterStreamFault_hdr (f : StreamFault) : (s.enterStreamFault f).hdr = f.header := rfl
@[simp] theorem State.enterStreamFault_pos (f : StreamFault) : (s.enterStreamFault f).pos = s.pos := rfl
@[simp] theorem State.enterStreamFault_res (f : StreamFault) : (s.enterStreamFault f).res = none := rfl
@[simp] theorem State.enterStreamFault_phase (f : StreamFault) : (s.enterStreamFault f).phase = s.phase := rfl
@[simp] theorem State.enterStreamFault_regMap (f : StreamFault) : (s.enterStreamFault f).regMap = s.regMap := rfl
@[simp] theorem State.enterStreamFault_fault (f : StreamFault) : (s.enterStreamFault f).fault = f.code := rfl
@[simp] theorem State.enterStreamFault_faultPos (f : StreamFault) : (s.enterStreamFault f).faultPos = some s.pos := rfl
@[simp] theorem State.enterStreamFault_port (f : StreamFault) : (s.enterStreamFault f).port = s.port := rfl
@[simp] theorem State.enterStreamFault_rsp (f : StreamFault) : (s.enterStreamFault f).rsp = s.rsp := rfl

/-! ### State.resetInput -/
@[simp] theorem State.resetInput_cfg : s.resetInput.cfg = s.cfg := rfl
@[simp] theorem State.resetInput_rxbuf : s.resetInput.rxbuf = [] := rfl
@[simp] theorem State.resetInput_hdr : s.resetInput.hdr = none := rfl
@[simp] theorem State.resetInput_pos : s.resetInput.pos = 0 := rfl
@[simp] theorem State.resetInput_res : s.resetInput.res = none := rfl
@[simp] theorem State.resetInput_phase : s.resetInput.phase = .init := rfl
@[simp] theorem State.resetInput_regMap : s.resetInput.regMap = resetRegistry s.cfg := rfl
@[simp] theorem State.resetInput_fault : s.resetInput.fault = .noFault := rfl
@[simp] theorem State.resetInput_faultPos : s.resetInput.faultPos = none := rfl
@[simp] theorem State.resetInput_port : s.resetInput.port = s.port.tail := rfl
@[simp] theorem State.resetInput_rsp : s.resetInput.rsp = none := rfl

/-! ### State.atReset -/
@[simp] theorem State.atReset_cfg (c : Config) (q : List HostInput) : (State.atReset c q).cfg = c := rfl
@[simp] theorem State.atReset_rxbuf (c : Config) (q : List HostInput) : (State.atReset c q).rxbuf = [] := rfl
@[simp] theorem State.atReset_hdr (c : Config) (q : List HostInput) : (State.atReset c q).hdr = none := rfl
@[simp] theorem State.atReset_pos (c : Config) (q : List HostInput) : (State.atReset c q).pos = 0 := rfl
@[simp] theorem State.atReset_res (c : Config) (q : List HostInput) : (State.atReset c q).res = none := rfl
@[simp] theorem State.atReset_phase (c : Config) (q : List HostInput) : (State.atReset c q).phase = .init := rfl
@[simp] theorem State.atReset_regMap (c : Config) (q : List HostInput) : (State.atReset c q).regMap = resetRegistry c := rfl
@[simp] theorem State.atReset_fault (c : Config) (q : List HostInput) : (State.atReset c q).fault = .noFault := rfl
@[simp] theorem State.atReset_faultPos (c : Config) (q : List HostInput) : (State.atReset c q).faultPos = none := rfl
@[simp] theorem State.atReset_port (c : Config) (q : List HostInput) : (State.atReset c q).port = q := rfl
@[simp] theorem State.atReset_rsp (c : Config) (q : List HostInput) : (State.atReset c q).rsp = none := rfl

@[simp] theorem StreamFault.code_ne (f : StreamFault) : f.code ≠ .noFault := by cases f <;> simp [StreamFault.code]

end Sys2Proof.Machine
end

