-- ==== Sys2Proof/Laws/Effects.lean ====
section
/-! SUPPORT. Everything a command can do to the block, said once: `Effect i s u` lists the nine ways the instruction `i` turns the
state `s` into `u` before it responds, each with the guard the spec gives it, and `exec_next` and `step_next` say that a next state is
reached in no other way. -/
namespace Sys2Proof.Machine

/-- FRAME, or a message that a FRAME executes. -/
abbrev RunsFramer (i : Instr) : Prop := i = .frame ∨ messageHeader i ≠ none

/-- How an instruction changes the state before its response. -/
inductive Effect : Instr → State → State → Prop
  /-- Refused, faulted, or ENCODE: no change (R95, R169, R173). -/
  | same (i : Instr) (s : State) : Effect i s s
  /-- PEEK latches what decode_header finds (R96). -/
  | peeked {s : State} (hf : s.fault = .noFault) (hm : decodeHeader s.rxbuf ≠ .invalidMarker) :
      Effect .peek s (s.latchHeader (frontHeader s.rxbuf))
  /-- FRAME latches a return of read_message (R119). -/
  | framed {i : Instr} {s : State} (hi : RunsFramer i) (m : Option Message) (n : Half) (hf : s.fault = .noFault)
      (hp : s.phase = .run) (hr : readMessage s.cfg.lenLimit s.regMap s.rxbuf = .returns m n) :
      Effect i s (s.latchFrame (frontHeader s.rxbuf) (some (resultOf m n)))
  /-- The stream fault INVALID_MARKER (R168). -/
  | badMarker {i : Instr} {s : State} (hi : i = .peek ∨ RunsFramer i) (hf : s.fault = .noFault)
      (hm : decodeHeader s.rxbuf = .invalidMarker) : Effect i s (s.enterStreamFault .invalidMarker)
  /-- The stream fault INVALID_LENGTH, by FRAME alone (R168). -/
  | badLength {i : Instr} {s : State} (hi : RunsFramer i) (h : Header) (hf : s.fault = .noFault) (hp : s.phase = .run)
      (hh : frontHeader s.rxbuf = some h) (hl : lengthLegal s.cfg.lenLimit h.length = false) :
      Effect i s (s.enterStreamFault (.invalidLength (some h)))
  /-- APPEND of bytes that fit (R118). -/
  | appended {s : State} (d : Bytes) (hf : s.fault = .noFault) (hc : s.rxbuf.length + d.length ≤ s.cfg.bufCap) :
      Effect (.append d) s (s.appendBytes d)
  /-- ADVANCE by the latched count (R120). -/
  | consumedBy {s : State} (r : Result) (hf : s.fault = .noFault) (hr : s.res = some r)
      (hn : (consumed r).toNat ≤ s.rxbuf.length) :
      Effect .advance s (s.consume (s.rxbuf.drop (consumed r).toNat) (consumed r).toNat)
  /-- REGISTER_TYPE in phase INIT (R140). -/
  | typeAdded {s : State} (t : Byte) (hf : s.fault = .noFault) (hp : s.phase = .init) (ht : t ≠ 0#8) :
      Effect (.registerType t) s (s.register t)
  /-- SEAL in phase INIT (R141). -/
  | sealed {s : State} (hf : s.fault = .noFault) (hp : s.phase = .init) : Effect .sealRegistry s s.closeRegistry

/-- `t` is reached by one of the effects of `i` and a response, which is FAULTED where the effect enters a stream fault. -/
def Responds (i : Instr) (s t : State) : Prop :=
  ∃ u r p, Effect i s u ∧ t = u.respond r p ∧ (s.fault = .noFault → u.fault ≠ .noFault → r = .faulted)

theorem Responds.same (i : Instr) (s : State) (r : Rsp) (p : Payload) : Responds i s (s.respond r p) :=
  ⟨s, r, p, .same i s, rfl, fun a b => absurd a b⟩

theorem Responds.of_effect {i : Instr} {s u : State} (e : Effect i s u) (r : Rsp) (p : Payload) (h : u.fault = s.fault) :
    Responds i s (u.respond r p) :=
  ⟨u, r, p, e, rfl, fun a b => absurd (h.trans a) b⟩

theorem Responds.of_fault {i : Instr} {s u : State} (e : Effect i s u) (p : Payload) : Responds i s (u.respond .faulted p) :=
  ⟨u, .faulted, p, e, rfl, fun _ _ => rfl⟩

theorem phase_ne_init {p : Phase} (h : p ≠ .init) : p = .run := by cases p <;> simp_all

theorem phase_ne_run {p : Phase} (h : p ≠ .run) : p = .init := by cases p <;> simp_all

/-- FRAME past its tests: either a latched return or a stream fault, never a stop (R119). -/
theorem runFramer_cases (s : State) :
    (∃ m n, readMessage s.cfg.lenLimit s.regMap s.rxbuf = .returns m n ∧
      runFramer s = .next ((s.latchFrame (frontHeader s.rxbuf) (some (resultOf m n))).respondFrame .done)) ∨
    (decodeHeader s.rxbuf = .invalidMarker ∧
      runFramer s = .next ((s.enterStreamFault .invalidMarker).respondFrame .faulted)) ∨
    (∃ h, frontHeader s.rxbuf = some h ∧ lengthLegal s.cfg.lenLimit h.length = false ∧
      runFramer s = .next ((s.enterStreamFault (.invalidLength (some h))).respondFrame .faulted)) := by
  rcases readMessage_cases s.cfg.lenLimit s.regMap s.rxbuf with
    ⟨_, hr⟩ | ⟨hm, hr⟩ | ⟨h, hd, ⟨hl, hr⟩ | ⟨_, _, hr⟩ | ⟨_, _, _, hr⟩ | ⟨_, _, _, hr⟩⟩
  · exact .inl ⟨_, _, hr, by simp [runFramer, hr]⟩
  · exact .inr (.inl ⟨hm, by simp [runFramer, hr]⟩)
  · exact .inr (.inr ⟨h, frontHeader_of_header hd, hl, by simp [runFramer, hr, frontHeader_of_header hd]⟩)
  · exact .inl ⟨_, _, hr, by simp [runFramer, hr]⟩
  · exact .inl ⟨_, _, hr, by simp [runFramer, hr]⟩
  · exact .inl ⟨_, _, hr, by simp [runFramer, hr]⟩

/-- A message instruction run on the buffer that begins with its header is a FRAME (R113 to R117). -/
theorem runMessage_eq_execFrame {s : State} {h : Header} (hh : frontHeader s.rxbuf = some h) :
    runMessage h (decodeStub h.type) s = execFrame s := by
  have hd := frontHeader_eq_some.1 hh
  unfold runMessage execFrame
  split
  · rfl
  split
  · rfl
  rw [if_neg (by simp [hh]), runFramer, readMessage_of_header hd]
  cases hl : lengthLegal s.cfg.lenLimit h.length
  · simp [hh]
  simp only [Bool.true_eq_false, if_false]
  by_cases hb : s.rxbuf.length < h.length.toNat
  · simp [hb, hh, resultOf]
  simp only [hb, if_false]
  have h0 : h.length ≠ 0#16 := by
    intro e; have := (lengthLegal_iff.1 hl).1; simp [e] at this
  cases hr : registered s.regMap h.type
  · simp [hh, resultOf, h0]
  · have hf := decodeStub_frame h (s.rxbuf.take h.length.toNat)
      (by rw [decodeHeader_take (lengthLegal_iff.1 hl).1, hd]) (by simp; omega)
    simp [hf, hh, resultOf]

theorem runMessage_next {h : Header} {s t : State} (e : runMessage h (decodeStub h.type) s = .next t) :
    execFrame s = .next t := by
  by_cases hh : frontHeader s.rxbuf = some h
  · rwa [runMessage_eq_execFrame hh] at e
  · unfold runMessage at e
    unfold execFrame
    split at e
    · rename_i hf; rw [if_pos hf]; exact e
    rename_i hf
    split at e
    · rename_i hp; rw [if_neg hf, if_pos hp]; exact e
    · simp at e

theorem execFrame_next {i : Instr} (hi : RunsFramer i) {s t : State} (e : execFrame s = .next t) : Responds i s t := by
  unfold execFrame at e
  split at e
  · cases e; exact .same _ _ _ _
  rename_i hf
  split at e
  · cases e; exact .same _ _ _ _
  rename_i hp
  have hf : s.fault = .noFault := not_not.1 hf
  have hp := phase_ne_init hp
  rcases runFramer_cases s with ⟨m, n, hr, h⟩ | ⟨hm, h⟩ | ⟨x, hx, hl, h⟩ <;> rw [h] at e <;> cases e
  · exact .of_effect (.framed hi m n hf hp hr) _ _ rfl
  · exact .of_fault (.badMarker (.inr hi) hf hm) _
  · exact .of_fault (.badLength hi x hf hp hx hl) _

theorem execPeek_next {s t : State} (e : execPeek s = .next t) : Responds .peek s t := by
  unfold execPeek at e
  split at e
  · cases e; exact .same _ _ _ _
  rename_i hf
  have hf : s.fault = .noFault := not_not.1 hf
  split at e <;> cases e
  · rename_i hd
    have := Effect.peeked hf (by simp [hd])
    simp only [frontHeader, hd] at this
    exact .of_effect this _ _ rfl
  · rename_i h hd
    have := Effect.peeked hf (by simp [hd])
    simp only [frontHeader, hd] at this
    exact .of_effect this _ _ rfl
  · rename_i hd
    exact .of_fault (.badMarker (.inl rfl) hf hd) _

theorem execAppend_next {d : Bytes} {s t : State} (e : execAppend d s = .next t) : Responds (.append d) s t := by
  unfold execAppend at e
  split at e
  · cases e; exact .same _ _ _ _
  rename_i hf
  split at e <;> cases e
  · exact .same _ _ _ _
  · exact .of_effect (.appended d (not_not.1 hf) (by omega)) _ _ rfl

theorem execAdvance_next {s t : State} (e : execAdvance s = .next t) : Responds .advance s t := by
  unfold execAdvance at e
  split at e
  · cases e; exact .same _ _ _ _
  rename_i hf
  split at e
  · cases e; exact .same _ _ _ _
  rename_i r hr
  by_cases hn : (consumed r).toNat ≤ s.rxbuf.length
  · rw [slice_to_end hn] at e
    cases e
    exact .of_effect (.consumedBy r (not_not.1 hf) hr hn) _ _ rfl
  · rw [slice_to_end_none (by omega)] at e
    cases e

theorem execRegisterType_next {b : Byte} {s t : State} (e : execRegisterType b s = .next t) :
    Responds (.registerType b) s t := by
  unfold execRegisterType at e
  split at e
  · cases e; exact .same _ _ _ _
  rename_i hf
  split at e
  · cases e; exact .same _ _ _ _
  rename_i hp
  split at e <;> cases e
  · exact .same _ _ _ _
  · rename_i ht
    exact .of_effect (.typeAdded b (not_not.1 hf) (phase_ne_run hp) ht) _ _ rfl

theorem execSeal_next {s t : State} (e : execSeal s = .next t) : Responds .sealRegistry s t := by
  unfold execSeal at e
  split at e
  · cases e; exact .same _ _ _ _
  rename_i hf
  split at e <;> cases e
  · exact .same _ _ _ _
  · rename_i hp
    exact .of_effect (.sealed (not_not.1 hf) (phase_ne_run hp)) _ _ rfl

/-- Whatever instruction answers a next state reaches it by one of the nine effects and a response. -/
theorem exec_next {i : Instr} {s t : State} (e : exec i s = .next t) : Responds i s t := by
  cases i with
  | openMsg l => exact execFrame_next (.inr (by simp [messageHeader])) (runMessage_next (h := ⟨l, tOpen⟩) e)
  | updateMsg l => exact execFrame_next (.inr (by simp [messageHeader])) (runMessage_next (h := ⟨l, tUpdate⟩) e)
  | notificationMsg l => exact execFrame_next (.inr (by simp [messageHeader])) (runMessage_next (h := ⟨l, tNotification⟩) e)
  | keepaliveMsg l => exact execFrame_next (.inr (by simp [messageHeader])) (runMessage_next (h := ⟨l, tKeepalive⟩) e)
  | unrecognized b l => exact execFrame_next (.inr (by simp [messageHeader])) (runMessage_next (h := ⟨l, b⟩) e)
  | registeredOther b l => exact execFrame_next (.inr (by simp [messageHeader])) (runMessage_next (h := ⟨l, b⟩) e)
  | registerType b => exact execRegisterType_next e
  | sealRegistry => exact execSeal_next e
  | append d => exact execAppend_next e
  | peek => exact execPeek_next e
  | frame => exact execFrame_next (.inl rfl) e
  | advance => exact execAdvance_next e
  | encode b d => cases e; exact .same _ _ _ _

/-- A step does nothing, is a reset, refuses a reserved code, or is an effect of the decoded command and a response. -/
theorem step_next {s t : State} (e : step s = .next t) :
    (s.port = [] ∧ t = s) ∨ (∃ q, s.port = .reset :: q ∧ t = State.atReset s.cfg q) ∨
    (∃ w q, s.port = .command w :: q ∧ t = s.respond .refused .empty) ∨
    (∃ w q i, s.port = .command w :: q ∧ decodeCommand w = .ok i ∧ Responds i s t) := by
  unfold step fetch at e
  cases hp : s.port with
  | nil => simp [hp] at e; exact .inl ⟨rfl, e.symm⟩
  | cons x q =>
    cases x with
    | reset => simp [hp, State.resetInput] at e; exact .inr (.inl ⟨q, rfl, e.symm⟩)
    | command w =>
      cases hd : decodeCommand w with
      | ok i => simp only [hp, hd] at e; exact .inr (.inr (.inr ⟨w, q, i, rfl, hd, exec_next e⟩))
      | error x => simp only [hp, hd] at e; cases e; exact .inr (.inr (.inl ⟨w, q, rfl, rfl⟩))

end Sys2Proof.Machine
end

