-- ==== Sys2Proof/Laws/Encoding.lean ====
section
/-! SUPPORT. The encodings said as equations: which row a header selects and what it encodes to (30_encoding.md R76, R77), the marker
byte for byte (R78), the command codes (R82, R83), the accepted case of encode_header (40_header_codec.md R90). -/
namespace Sys2Proof

/-- The row a header selects is its own row. -/
theorem rowFits_messageRow (reg : RegMap) (h : Header) : (messageRow reg h).rowFits reg = true := by
  unfold messageRow
  split
  · rename_i hr
    have hn := registered_ne_nil hr
    repeat' split
    all_goals simp_all [Instr.rowFits]
    rename_i h1 h2 h3 h4
    have f : ∀ k : Nat, k < 5 → h.type.toNat ≠ k := by
      intro k hk e
      have : h.type = BitVec.ofNat 8 k := by apply BitVec.eq_of_toNat_eq; simp [e]; omega
      interval_cases k <;> simp_all
    have := f 0; have := f 1; have := f 2; have := f 3; have := f 4; omega
  · simp_all [Instr.rowFits]

/-- Whatever row a header selects, the row's code is that header. -/
theorem encode_messageRow (reg : RegMap) (h : Header) : encode (messageRow reg h) = .header (headerBytes h) := by
  obtain ⟨l, t⟩ := h
  unfold messageRow
  repeat' split
  all_goals simp_all [encode]

/-- Whatever row a header selects carries that header. -/
theorem messageHeader_messageRow (reg : RegMap) (h : Header) :
    Machine.messageHeader (messageRow reg h) = some h := by
  obtain ⟨l, t⟩ := h
  unfold messageRow
  repeat' split
  all_goals simp_all [Machine.messageHeader]

/-- The marker, byte for byte (R78). -/
theorem take_eq_marker {bytes : Bytes} :
    bytes.take 16 = marker ↔ ∀ k, k < 16 → bytes[k]? = some 0xFF := by
  constructor
  · intro e k hk
    have : (bytes.take 16)[k]? = bytes[k]? := by rw [List.getElem?_take]; simp [hk]
    rw [← this, e]; unfold marker; rw [List.getElem?_replicate]; simp [markerByte, hk]
  · intro e
    apply List.ext_getElem?
    intro k
    rw [List.getElem?_take]
    by_cases hk : k < 16
    · unfold marker; rw [List.getElem?_replicate]; simp [hk, e k hk, markerByte]
    · unfold marker; rw [List.getElem?_replicate]; simp [hk]

/-- A reserved code selects no command (R83). -/
theorem decodeCommand_reserved {w : PortWord} (h : w.cmd.toNat = 0 ∨ 8 ≤ w.cmd.toNat) :
    decodeCommand w = .error .reservedCommand := by
  obtain ⟨c, t, d⟩ := w
  have n : ∀ k : BitVec 4, k.toNat ≠ 0 → k.toNat < 8 → c ≠ k := by rintro k h1 h2 rfl; simp at h; omega
  simp [decodeCommand, n]

/-- No command of the port is a message row (R82). -/
theorem messageHeader_of_command {w : PortWord} {i : Instr} (h : decodeCommand w = .ok i) :
    Machine.messageHeader i = none := by
  unfold decodeCommand at h
  repeat' split at h
  all_goals cases h
  all_goals rfl

/-- LEN_LIMIT fits the 16-bit field (R8). -/
theorem lenLimit_le (c : Config) : c.lenLimit ≤ 65535 := by rcases lenLimit_cases c with h | h <;> omega

/-- A total that LEN_LIMIT admits is written whole into the length field (R91). -/
theorem toNat_total {c : Config} {body : Bytes} (hb : body.length + 19 ≤ c.lenLimit) :
    (BitVec.ofNat 16 (body.length + 19)).toNat = body.length + 19 := by
  have := lenLimit_le c; simp; omega

/-- encode_header where it accepts (R90 step 4). -/
theorem encodeHeader_ok {c : Config} {t : Byte} {body : Bytes} (ht : t ≠ 0#8) (hb : body.length + 19 ≤ c.lenLimit) :
    encodeHeader c.lenLimit t body = .bytes (headerBytes ⟨BitVec.ofNat 16 (body.length + 19), t⟩ ++ body) := by
  have : ¬ c.lenLimit < body.length + 19 := by omega
  simp [encodeHeader, ht, this]

/-- A legal length is not 0 (R110 corner case i). -/
theorem ne_zero_of_lengthLegal {l : Nat} {n : Half} (h : lengthLegal l n = true) : n ≠ 0#16 := by
  rintro rfl
  have := (lengthLegal_iff.1 h).1
  simp at this

/-- A latched SKIP or MSG of the right shape consumes something (R25). -/
theorem consumed_ne_zero {l : Nat} {reg : RegMap} {r : Machine.Result} (h : r.shaped l reg) (hr : r ≠ .needMore) :
    Machine.consumed r ≠ 0#16 := by
  cases r with
  | needMore => exact absurd rfl hr
  | skip n => exact ne_zero_of_lengthLegal h
  | msg m n =>
    obtain ⟨rfl, hw, _⟩ := h
    simp only [Machine.messageWf, Bool.and_eq_true] at hw
    exact ne_zero_of_lengthLegal hw.2

/-- The wire length of a message (R74). -/
theorem wireBytes_length (m : Byte × Bytes) : (Machine.wireBytes m).length = m.2.length + 19 := by
  simp [Machine.wireBytes]; omega

end Sys2Proof
end

