-- ==== Sys2Proof/Laws/PerInstr.lean ====
section
/-! SUPPORT. The family TableRow: the code of an instruction matches the match and mask of its row of spec/opcode_table.json
(30_encoding.md R71: a header matches a row when (H AND mask) = match), one lemma per constructor. -/
namespace Sys2Proof.Laws.TableRow

/-- The mask of a row that fixes marker and type, and of a row that fixes the marker alone. -/
def typedMask : Nat := 0xffffffffffffffffffffffffffffffff0000ff
def markerMask : Nat := 0xffffffffffffffffffffffffffffffff000000

/-- A code matches a row: a header by (H AND mask) = match, a command by its CMD under the mask 0xf. -/
def Fits (mask value : Nat) : Code → Prop
  | .header bytes => headerNumber bytes &&& mask = value
  | .command w => w.cmd.toNat &&& mask = value

/-- The code of an instruction matches its row. -/
def Statement (i : Instr) : Prop :=
  match i with
  | .openMsg _ => Fits typedMask 0xffffffffffffffffffffffffffffffff000001 (encode i)
  | .updateMsg _ => Fits typedMask 0xffffffffffffffffffffffffffffffff000002 (encode i)
  | .notificationMsg _ => Fits typedMask 0xffffffffffffffffffffffffffffffff000003 (encode i)
  | .keepaliveMsg _ => Fits typedMask 0xffffffffffffffffffffffffffffffff000004 (encode i)
  | .unrecognized _ _ => Fits markerMask 0xffffffffffffffffffffffffffffffff000000 (encode i)
  | .registeredOther _ _ => Fits markerMask 0xffffffffffffffffffffffffffffffff000000 (encode i)
  | .registerType _ => Fits 0xf 0x1 (encode i)
  | .sealRegistry => Fits 0xf 0x2 (encode i)
  | .append _ => Fits 0xf 0x3 (encode i)
  | .peek => Fits 0xf 0x4 (encode i)
  | .frame => Fits 0xf 0x5 (encode i)
  | .advance => Fits 0xf 0x6 (encode i)
  | .encode _ _ => Fits 0xf 0x7 (encode i)

/-- The number H of a header: the marker above bit 24, the length in bits 23..8, the type in bits 7..0 (R70, R71). -/
theorem headerNumber_headerBytes (h : Header) :
    headerNumber (headerBytes h) = (2 ^ 128 - 1) * 2 ^ 24 + (h.length.toNat * 2 ^ 8 + h.type.toNat) := by
  have e : (hi8 h.length).toNat * 256 + (lo8 h.length).toNat = h.length.toNat := by
    rw [hi8_toNat, lo8_toNat]; omega
  have hm : headerNumber (headerBytes h) =
      (((2 ^ 128 - 1) * 256 + (hi8 h.length).toNat) * 256 + (lo8 h.length).toNat) * 256 + h.type.toNat := by
    simp [headerNumber, headerBytes, marker, markerByte, List.replicate]
  rw [hm, ← e]; ring

/-- The bits of a header below the marker. -/
theorem low_lt (h : Header) : h.length.toNat * 2 ^ 8 + h.type.toNat < 2 ^ 24 := by
  have := h.length.isLt; have := h.type.isLt; omega

theorem and_split (a b c : Nat) (hb : b < 2 ^ 24) (hc : c < 2 ^ 24) :
    (a * 2 ^ 24 + b) &&& (a * 2 ^ 24 + c) = a * 2 ^ 24 + (b &&& c) := by
  have hbc : b &&& c < 2 ^ 24 := lt_of_le_of_lt Nat.and_le_left hb
  apply Nat.eq_of_testBit_eq
  intro i
  rw [Nat.testBit_and, mul_comm, Nat.testBit_two_pow_mul_add a hb, Nat.testBit_two_pow_mul_add a hc,
    Nat.testBit_two_pow_mul_add a hbc]
  split <;> simp

/-- A header and the marker mask leave the marker. -/
theorem fits_marker (h : Header) :
    Fits markerMask 0xffffffffffffffffffffffffffffffff000000 (.header (headerBytes h)) := by
  have hm : markerMask = (2 ^ 128 - 1) * 2 ^ 24 + 0 := rfl
  change headerNumber (headerBytes h) &&& markerMask = _
  rw [headerNumber_headerBytes, hm, and_split _ _ _ (low_lt h) (by decide)]
  simp

/-- A header and the mask of a named row leave marker and type. -/
theorem fits_typed (h : Header) :
    Fits typedMask ((2 ^ 128 - 1) * 2 ^ 24 + h.type.toNat) (.header (headerBytes h)) := by
  have hm : typedMask = (2 ^ 128 - 1) * 2 ^ 24 + (2 ^ 8 - 1) := rfl
  have ht := h.type.isLt
  change headerNumber (headerBytes h) &&& typedMask = _
  rw [headerNumber_headerBytes, hm, and_split _ _ _ (low_lt h) (by decide), Nat.and_two_pow_sub_one_eq_mod]
  omega

theorem openMsg (length : Half) : Statement (.openMsg length) := fits_typed ⟨length, tOpen⟩
theorem updateMsg (length : Half) : Statement (.updateMsg length) := fits_typed ⟨length, tUpdate⟩
theorem notificationMsg (length : Half) : Statement (.notificationMsg length) := fits_typed ⟨length, tNotification⟩
theorem keepaliveMsg (length : Half) : Statement (.keepaliveMsg length) := fits_typed ⟨length, tKeepalive⟩
theorem unrecognized (t : Byte) (length : Half) : Statement (.unrecognized t length) := fits_marker ⟨length, t⟩
theorem registeredOther (t : Byte) (length : Half) : Statement (.registeredOther t length) := fits_marker ⟨length, t⟩
theorem registerType (t : Byte) : Statement (.registerType t) := by simp [Statement, Fits, Sys2Proof.encode]
theorem sealRegistry : Statement .sealRegistry := by simp [Statement, Fits, Sys2Proof.encode]
theorem append (data : Bytes) : Statement (.append data) := by simp [Statement, Fits, Sys2Proof.encode]
theorem peek : Statement .peek := by simp [Statement, Fits, Sys2Proof.encode]
theorem frame : Statement .frame := by simp [Statement, Fits, Sys2Proof.encode]
theorem advance : Statement .advance := by simp [Statement, Fits, Sys2Proof.encode]
theorem encode (t : Byte) (body : Bytes) : Statement (.encode t body) := by simp [Statement, Fits, Sys2Proof.encode]

end Sys2Proof.Laws.TableRow
end

