-- ==== Sys2Proof/Laws/Runs.lean ====
section
/-! SUPPORT. Steps whose input is known, and runs put together: the message instructions as one meaning, the two commands of a STEP
(30_encoding.md R85), runs one after the other (20_memory.md R60). -/
namespace Sys2Proof.Machine

/-- Every message instruction is the one shared operation on its header (R113 to R117, R77). -/
theorem exec_message {i : Instr} {h : Header} (hm : messageHeader i = some h) (s : State) :
    exec i s = runMessage h (decodeStub h.type) s := by
  cases i <;> simp [messageHeader] at hm <;> subst hm <;> rfl

/-- FRAME at the port. -/
theorem step_frame {s : State} {q : List HostInput} (hq : s.port = inFrame :: q) : step s = exec .frame s := by
  have : fetch s = .command .frame := by unfold fetch; rw [hq]; rfl
  unfold step; rw [this]

/-- ADVANCE at the port. -/
theorem step_advance {s : State} {q : List HostInput} (hq : s.port = inAdvance :: q) : step s = exec .advance s := by
  have : fetch s = .command .advance := by unfold fetch; rw [hq]; rfl
  unfold step; rw [this]

/-- A run of one step. -/
theorem runSteps_one (s : State) : runSteps 1 s = step s := by
  simp only [runSteps]; cases step s <;> rfl

/-- A run of `a + b` steps is a run of `a` and then a run of `b` (R60). -/
theorem runSteps_add (a b : Nat) (s t : State) (h : runSteps a s = .next t) : runSteps (a + b) s = runSteps b t := by
  induction a generalizing s with
  | zero => simp only [runSteps] at h; cases h; simp
  | succ n ih =>
    rw [show n + 1 + b = (n + b) + 1 by omega]
    simp only [runSteps] at h ⊢
    cases hs : step s <;> simp only [hs] at h ⊢ <;> first | exact ih _ h | cases h

/-- The inputs of one more STEP (R85). -/
theorem asmSteps_succ (k : Nat) (q : List HostInput) :
    asmSteps (k + 1) ++ q = inFrame :: inAdvance :: (asmSteps k ++ q) := by
  simp [asmSteps, asmStep]

end Sys2Proof.Machine
end

