-- ==== Sys2Proof/Tests/Slice0.lean ====
section
/-! SUPPORT. Tests: decoding of words written out from spec/30_encoding.md, ill-formed instructions, single steps with the results of
spec/95_test_vectors.md, and for every statement with hypotheses a state and operands that meet them. -/
namespace Sys2Proof.Tests
open Sys2Proof Sys2Proof.Machine

/-! ### What the tests are written with -/

/-- The sixteen marker bytes (R85). -/
def ff16 : Bytes := [255, 255, 255, 255, 255, 255, 255, 255, 255, 255, 255, 255, 255, 255, 255, 255]
/-- The 19 bytes K of spec/95_test_vectors.md part 3. -/
def kAlive : Bytes := ff16 ++ [0x00, 0x13, 0x04]
/-- The 23 bytes of V-F9: type 5. -/
def five : Bytes := ff16 ++ [0x00, 0x17, 0x05, 0x00, 0x01, 0x01, 0x80]
/-- The bytes of V-D7: marker byte 7 has one bit clear. -/
def badMark : Bytes := [255, 255, 255, 255, 255, 255, 255, 254, 255, 255, 255, 255, 255, 255, 255, 255, 0x00, 0x13, 0x04]
/-- The recommended registry {1, 2, 3, 4}. -/
def reg4 : RegMap := resetRegistry Config.recommended
/-- After reset and SEAL, with `buf` appended: the start of spec/95_test_vectors.md 2.4. -/
def sealed (buf : Bytes) : State := { State.reset with phase := .run, rxbuf := buf }
/-- After reset, with `buf` appended and no SEAL. -/
def unsealed (buf : Bytes) : State := { State.reset with rxbuf := buf }
/-- A faulted state (V-C13). -/
def faulted : State := { sealed badMark with fault := .invalidMarker, faultPos := some 0 }
/-- A KEEPALIVE framed and not yet consumed. -/
def latched : State := { sealed kAlive with hdr := some ⟨19, 4⟩, res := some (.msg ⟨4, 19, []⟩ 19) }
/-- The same block with one host input. -/
def given (s : State) (i : HostInput) : State := { s with port := [i] }
/-- A command code with operand lines of zero. -/
def code (c : BitVec 4) : HostInput := .command ⟨c, 0, []⟩
/-- The state after, where there is one. -/
def nextOf : StepOutcome → Option State
  | .next t => some t
  | .fault _ => none
  | .refused _ => none
/-- The response of a step. -/
def rspOf (o : StepOutcome) : Option Response := (nextOf o).bind State.rsp

/-! ### Well-formedness: an ill-formed term for each check -/

theorem test_wf_accepts_open : (Instr.openMsg 29).wellFormed 4096 reg4 = true := by decide
theorem test_wf_refuses_short_length : (Instr.keepaliveMsg 18).wellFormed 4096 reg4 = false := by decide
theorem test_wf_refuses_long_length : (Instr.updateMsg 4097).wellFormed 4096 reg4 = false := by decide
theorem test_wf_refuses_named_row_not_registered : (Instr.openMsg 29).wellFormed 4096 0 = false := by decide
theorem test_wf_refuses_unrecognized_of_registered : (Instr.unrecognized 4 19).wellFormed 4096 reg4 = false := by decide
theorem test_wf_refuses_other_of_unregistered : (Instr.registeredOther 5 19).wellFormed 4096 reg4 = false := by decide
theorem test_wf_refuses_other_of_named_type : (Instr.registeredOther 4 19).wellFormed 4096 reg4 = false := by decide

/-! ### Decoding: words of spec/opcode_table.json, bit by bit from R71 and R82 -/

theorem test_word_open :
    decodeTableWord 152 0xffffffffffffffffffffffffffffffff001d01 = some (.openMsg 29) := by decide
theorem test_word_update :
    decodeTableWord 152 0xffffffffffffffffffffffffffffffff010002 = some (.updateMsg 256) := by decide
theorem test_word_notification :
    decodeTableWord 152 0xffffffffffffffffffffffffffffffff001503 = some (.notificationMsg 21) := by decide
theorem test_word_keepalive :
    decodeTableWord 152 0xffffffffffffffffffffffffffffffff001304 = some (.keepaliveMsg 19) := by decide
theorem test_word_unrecognized :
    decodeTableWord 152 0xffffffffffffffffffffffffffffffff001705 = some (.unrecognized 5 23) := by decide
theorem test_word_nil_is_unrecognized :
    decodeTableWord 152 0xffffffffffffffffffffffffffffffff001300 = some (.unrecognized 0 19) := by decide
theorem test_registered_other : decode (addType reg4 5) (.header five) = .ok (.registeredOther 5 23) := by decide
theorem test_word_bad_marker :
    decodeTableWord 152 0xfffffffffffffefffffffffffffffff0001304 = none := by decide
theorem test_word_register_type : decodeTableWord 4 0x1 = some (.registerType 0) := by decide
theorem test_word_seal : decodeTableWord 4 0x2 = some .sealRegistry := by decide
theorem test_word_append : decodeTableWord 4 0x3 = some (.append []) := by decide
theorem test_word_peek : decodeTableWord 4 0x4 = some .peek := by decide
theorem test_word_frame : decodeTableWord 4 0x5 = some .frame := by decide
theorem test_word_advance : decodeTableWord 4 0x6 = some .advance := by decide
theorem test_word_encode : decodeTableWord 4 0x7 = some (.encode 0 []) := by decide
theorem test_word_reserved : decodeTableWord 4 0x0 = none ∧ decodeTableWord 4 0x9 = none := by decide

/-! ### Codec and framer: spec/95_test_vectors.md 2.1 to 2.3 -/

/-- V-E1, V-E2, V-E4, V-E6. -/
theorem test_encode_header :
    encodeHeader 4096 4 [] = .bytes kAlive ∧
    encodeHeader 4096 1 [0x04, 0xfd, 0xe8] = .bytes (ff16 ++ [0x00, 0x16, 0x01, 0x04, 0xfd, 0xe8]) ∧
    encodeHeader 4096 0 [] = .invalidMessageType ∧
    encodeHeader 4096 255 [0xaa] = .bytes (ff16 ++ [0x00, 0x14, 0xff, 0xaa]) := by decide
/-- V-E7, V-E8, V-E10, V-E11: the greatest bodies. -/
theorem test_encode_header_limits (b : Bytes) :
    (b.length = 4077 → encodeHeader 4096 2 b = .bytes (ff16 ++ [0x10, 0x00, 0x02] ++ b)) ∧
    (b.length = 4078 → encodeHeader 4096 2 b = .invalidLength 4097) ∧
    (b.length = 65516 → encodeHeader 65535 2 b = .bytes (ff16 ++ [0xff, 0xff, 0x02] ++ b)) ∧
    (b.length = 65517 → encodeHeader 65535 2 b = .invalidLength 65536) := by
  refine ⟨?_, ?_, ?_, ?_⟩ <;> intro h <;> simp [encodeHeader, h] <;> rfl
/-- V-D1, V-D3, V-D5, V-D6, V-D10. -/
theorem test_decode_header :
    decodeHeader (ff16 ++ [0x00, 0x13]) = .incomplete ∧
    decodeHeader (ff16 ++ [0x01, 0x00, 0x02]) = .header ⟨256, 2⟩ ∧
    decodeHeader (ff16 ++ [0x00, 0x00, 0x04]) = .header ⟨0, 4⟩ ∧
    decodeHeader (ff16 ++ [0xff, 0xff, 0xff]) = .header ⟨65535, 255⟩ ∧
    decodeHeader (List.replicate 18 0) = .incomplete := by decide
/-- V-D7, V-D8, V-D9, V-D11. -/
theorem test_decode_header_marker :
    decodeHeader badMark = .invalidMarker ∧
    decodeHeader (0x7f :: ff16.drop 1 ++ [0x00, 0x13, 0x04]) = .invalidMarker ∧
    decodeHeader (ff16.take 15 ++ [0x00, 0x00, 0x13, 0x04]) = .invalidMarker ∧
    decodeHeader (ff16 ++ [0x00, 0x14, 0x04, 0x99, 0x88]) = .header ⟨20, 4⟩ := by decide
/-- V-F1, V-F2, V-F3, V-F9, V-F10, V-F11, V-F12. -/
theorem test_read_message :
    readMessage 4096 reg4 kAlive = .returns (some ⟨4, 19, []⟩) 19 ∧
    readMessage 4096 reg4 (kAlive.take 10) = .returns none 0 ∧
    readMessage 4096 reg4 (kAlive ++ kAlive) = .returns (some ⟨4, 19, []⟩) 19 ∧
    readMessage 4096 reg4 five = .returns none 23 ∧
    readMessage 4096 reg4 (five.take 22) = .returns none 0 ∧
    readMessage 4096 (addType reg4 5) five = .returns (some ⟨5, 23, [0x00, 0x01, 0x01, 0x80]⟩) 23 ∧
    readMessage 4096 reg4 (ff16 ++ [0x00, 0x13, 0x00]) = .returns none 19 := by decide
/-- V-F13, V-F14, V-F15, V-F16, V-F17, V-F26, V-F27. -/
theorem test_read_message_lengths :
    readMessage 4096 reg4 (ff16 ++ [0x00, 0x12, 0x04]) = .invalidLength 18 ∧
    readMessage 4096 reg4 (ff16 ++ [0x00, 0x00, 0x05]) = .invalidLength 0 ∧
    readMessage 4096 reg4 (ff16 ++ [0x10, 0x01, 0x02]) = .invalidLength 4097 ∧
    readMessage 65535 reg4 (ff16 ++ [0x10, 0x01, 0x02]) = .returns none 0 ∧
    readMessage 4096 reg4 (ff16 ++ [0x10, 0x00, 0x02]) = .returns none 0 ∧
    readMessage 65535 reg4 (ff16 ++ [0xff, 0xff, 0xff]) = .returns none 0 ∧
    readMessage 4096 reg4 (ff16 ++ [0xff, 0xff, 0xff]) = .invalidLength 65535 := by decide
/-- V-F19, V-F24, V-F25. -/
theorem test_read_message_order :
    readMessage 4096 reg4 ([255, 255, 255, 0] ++ ff16.drop 4 ++ [0x00, 0x00, 0x04]) = .invalidMarker ∧
    readMessage 4096 reg4 (ff16 ++ [0x00, 0x26, 0x02] ++ kAlive) = .returns (some ⟨2, 38, kAlive⟩) 38 ∧
    readMessage 4096 0 kAlive = .returns none 19 := by decide
/-- MemRead(16, 2) of V-D3 is 256 (R10, R122). -/
theorem test_memRead : memRead (ff16 ++ [0x01, 0x00, 0x02]) 16 2 = some 256 ∧ memRead kAlive 18 2 = none := by decide

/-! ### Single steps: spec/95_test_vectors.md 2.4 and part 3 -/

/-- V-C11, V-C12. -/
theorem test_register_type_refused :
    rspOf (exec (.registerType 5) (sealed [])) = some ⟨.refused, .empty⟩ ∧
    rspOf (exec (.registerType 0) (unsealed [])) = some ⟨.refused, .empty⟩ := by decide
/-- P5 step 4. -/
theorem test_register_type :
    (nextOf (exec (.registerType 5) State.reset)).map State.regMap = some 0x3e#256 := by decide
/-- P1 step 2 and P5 step 9. -/
theorem test_seal :
    (nextOf (step (given State.reset (code 2)))).map State.phase = some .run ∧
    rspOf (exec .sealRegistry (sealed [])) = some ⟨.refused, .empty⟩ := by decide
/-- The example of R118. -/
theorem test_append :
    (nextOf (exec (.append [0xff, 0x00]) (sealed [0xff, 0xff]))).map State.rxbuf = some [0xff, 0xff, 0xff, 0x00] := by decide
/-- V-C6, V-C7: 4090 bytes buffered. -/
theorem test_append_capacity (b : Bytes) (hb : b.length = 4090) :
    (nextOf (exec (.append [1, 2, 3, 4, 5, 6, 7]) (sealed b))).map State.rxbuf = some b ∧
    (nextOf (exec (.append [1, 2, 3, 4, 5, 6]) (sealed b))).map rxReady = some false := by
  constructor <;> simp [exec, execAppend, sealed, State.reset, State.atReset, Config.recommended, nextOf, rxReady,
    State.respond, State.appendBytes, memWrite, hb]
/-- V-C1, V-C4. -/
theorem test_peek :
    (nextOf (exec .peek (sealed (ff16 ++ [0x00, 0x1d, 0x01] ++ List.replicate 10 0)))).map State.hdr = some (some ⟨29, 1⟩) ∧
    (nextOf (exec .peek (sealed (ff16 ++ [0x00, 0x12, 0x04])))).map State.hdr = some (some ⟨18, 4⟩) := by decide
/-- V-C3. -/
theorem test_peek_bad_marker :
    (nextOf (exec .peek (sealed badMark))).map (fun t => (t.fault, t.faultPos, t.hdr, t.res)) =
      some (.invalidMarker, some 0, none, none) := by decide
/-- V-C5, V-C10. -/
theorem test_frame_stops :
    (nextOf (exec .frame (sealed (ff16 ++ [0x00, 0x12, 0x04])))).map (fun t => (t.fault, t.faultPos, t.hdr, t.res)) =
      some (.invalidLength, some 0, some ⟨18, 4⟩, none) ∧
    rspOf (exec .frame (unsealed kAlive)) = some ⟨.refused, .framed none none⟩ := by decide
/-- P3 step 5: the header whose body is awaited. -/
theorem test_frame_waits :
    (nextOf (exec .frame (sealed (ff16 ++ [0x00, 0x17, 0x02, 0x00])))).map (fun t => (t.hdr, t.res)) =
      some (some ⟨23, 2⟩, some .needMore) := by decide
/-- The example of R120, and V-C9. -/
theorem test_advance :
    (nextOf (exec .advance { latched with rxbuf := kAlive ++ kAlive })).map (fun t => (t.rxbuf, t.pos, t.res, t.hdr)) =
      some (kAlive, 19, none, none) ∧
    rspOf (exec .advance (sealed kAlive)) = some ⟨.refused, .empty⟩ := by decide
/-- V-C16: POS wraps. -/
theorem test_advance_wraps :
    (nextOf (exec .advance { latched with pos := 2 ^ 64 - 10 })).map State.pos = some 9 := by decide
/-- V-C13, V-C14. -/
theorem test_encode :
    rspOf (exec (.encode 4 []) faulted) = some ⟨.done, .encoded (.ok kAlive)⟩ ∧
    rspOf (exec (.encode 0 []) faulted) = some ⟨.done, .encoded .invalidMessageType⟩ := by decide
/-- V-C15. -/
theorem test_reserved_codes :
    rspOf (step (given faulted (code 0))) = some ⟨.refused, .empty⟩ ∧
    rspOf (step (given (sealed []) (code 9))) = some ⟨.refused, .empty⟩ := by decide
/-- P4 steps 9 and 11. -/
theorem test_faulted :
    rspOf (step (given faulted (code 4))) = some ⟨.faulted, .header none⟩ ∧
    nextOf (step (given faulted .reset)) = some State.reset := by decide
/-- R113, V-F23 with a body of 2 bytes. -/
theorem test_open :
    (nextOf (exec (.openMsg 21) (sealed (ff16 ++ [0x00, 0x15, 0x01, 0x04, 0xfd])))).map State.res =
      some (some (.msg ⟨1, 21, [0x04, 0xfd]⟩ 21)) := by decide
/-- R114, V-F7 and P3 step 8. -/
theorem test_update :
    (nextOf (exec (.updateMsg 23) (sealed (ff16 ++ [0x00, 0x17, 0x02, 0, 0, 0, 0])))).map State.res =
      some (some (.msg ⟨2, 23, [0, 0, 0, 0]⟩ 23)) := by decide
/-- R115, V-F22. -/
theorem test_notification :
    (nextOf (exec (.notificationMsg 21) (sealed (ff16 ++ [0x00, 0x15, 0x03, 0x06, 0x02])))).map State.res =
      some (some (.msg ⟨3, 21, [0x06, 0x02]⟩ 21)) := by decide
/-- R116, V-F21: a body is accepted. -/
theorem test_keepalive :
    (nextOf (exec (.keepaliveMsg 20) (sealed (ff16 ++ [0x00, 0x14, 0x04, 0x77])))).map State.res =
      some (some (.msg ⟨4, 20, [0x77]⟩ 20)) := by decide
/-- P3 step 3. -/
theorem test_unrecognized :
    (nextOf (exec (.unrecognized 5 23) (sealed five))).map (fun t => (t.hdr, t.res)) =
      some (some ⟨23, 5⟩, some (.skip 23)) := by decide
/-- P5 step 10. -/
theorem test_registered_other_step :
    (nextOf (exec (.registeredOther 5 23) { sealed five with regMap := addType reg4 5 })).map State.res =
      some (some (.msg ⟨5, 23, [0x00, 0x01, 0x01, 0x80]⟩ 23)) := by decide
/-- The tags of R111. -/
theorem test_tags :
    [1, 2, 3, 4, 5, 0].map (fun t => tagOf ⟨t, 19, []⟩) =
      [.openTag, .updateTag, .notificationTag, .keepAliveTag, .unknownTag, .unknownTag] := by decide
/-- The lines of R85. -/
theorem test_assembler :
    asmLine (.append [0xff, 0xff, 0x00, 0x13, 0x04]) = some "APPEND ff ff 00 13 04" ∧
    asmLine (.encode 2 [0, 0, 0, 0]) = some "ENCODE 02 : 00 00 00 00" ∧
    asmMsg 4096 4 [] = some asmKeepalive := by decide

/-! ### The instruction placed where a step fetches it -/

theorem test_fetch_command :
    (nextOf (step (State.reset.withFetchWord 4 0x2))).map State.phase = some .run ∧
    rspOf (step (State.reset.withFetchWord 4 0x7)) = some ⟨.done, .encoded .invalidMessageType⟩ := by decide
theorem test_fetch_message :
    (nextOf (step (State.reset.withFetchWord 152 0xffffffffffffffffffffffffffffffff001503))).map State.res =
      some (some (.msg ⟨3, 21, [0, 0]⟩ 21)) ∧
    (nextOf (step (State.reset.withFetchWord 152 0xffffffffffffffffffffffffffffffff000002))).map State.fault =
      some .invalidLength := by decide

/-! ### Witnesses: for each statement with hypotheses, what meets them, clause by clause where it has several -/

/-- Every row fits some registry, with its code a header of 19 bytes. -/
theorem test_witness_DecodeInvertsEncode :
    (Instr.openMsg 65535).rowFits reg4 = true ∧ (Instr.keepaliveMsg 0).rowFits reg4 = true ∧
    (Instr.unrecognized 0 19).rowFits reg4 = true ∧ (Instr.unrecognized 255 19).rowFits reg4 = true ∧
    (Instr.registeredOther 5 19).rowFits (addType reg4 5) = true ∧ (Instr.append [1]).rowFits reg4 = true ∧
    encode (.keepaliveMsg 19) = .header kAlive := by decide
theorem test_witness_EncodeInvertsDecode :
    decode reg4 (.header (five ++ [1])) = .ok (.unrecognized 5 23) ∧
    decode reg4 (.command ⟨7, 255, [1]⟩) = .ok (.encode 255 [1]) := by decide
/-- The boundaries of the three refusals. -/
theorem test_witness_DecodeRefusesExactlyTheIllegal :
    decode reg4 (.header (kAlive.take 18)) = .error .shortHeader ∧
    decode reg4 (.header badMark) = .error .illegalMarker ∧
    decode reg4 (.command ⟨0, 0, []⟩) = .error .reservedCommand ∧
    decode reg4 (.command ⟨8, 0, []⟩) = .error .reservedCommand ∧
    decode reg4 (.command ⟨15, 0, []⟩) = .error .reservedCommand := by decide
/-- 18 bytes, a bad byte at offset 15, a good header. -/
theorem test_witness_DecodeHeaderHasThreeOutcomes :
    (kAlive.take 18).length < 19 ∧
    (19 ≤ (ff16.take 15 ++ [0, 0, 0x13, 4]).length ∧ (ff16.take 15 ++ [0, 0, 0x13, 4])[15]? ≠ some 0xFF) ∧
    (19 ≤ kAlive.length ∧ ∀ k, k < 16 → kAlive[k]? = some 0xFF) := by decide
/-- Byte sequences of every length. -/
theorem bytes_of_length (n : Nat) : ∃ b : Bytes, b.length = n := ⟨List.replicate n 0, List.length_replicate⟩
theorem test_witness_EncodeHeaderBuildsTheMessage :
    (1 : Byte) ≠ 0 ∧ ([] : Bytes).length + 19 ≤ Config.recommended.lenLimit ∧
    ∃ body : Bytes, Config.recommended.lenLimit < body.length + 19 := by
  obtain ⟨b, hb⟩ := bytes_of_length 4078
  exact ⟨by decide, by decide, b, by rw [hb]; decide⟩
theorem test_witness_HeaderRoundTrip : (255 : Byte) ≠ 0 ∧ [(0xaa : Byte)].length + 19 ≤ Config.recommended.lenLimit := by decide
theorem test_witness_EncodeRecomputesTheLength :
    (⟨4, 20, [0x77]⟩ : Message).type ≠ 0 ∧ messageWf Config.recommended.lenLimit ⟨4, 20, [0x77]⟩ = true := by decide
theorem test_witness_DecodeStubWrapsTheFrame :
    (decodeHeader kAlive = .header ⟨19, 4⟩ ∧ kAlive.length = (19 : Half).toNat) ∧
    ¬ ∃ h, decodeHeader (kAlive ++ [0]) = .header h ∧ h.type = 4 ∧ (kAlive ++ [0]).length = h.length.toNat := by
  refine ⟨by decide, ?_⟩
  rintro ⟨h, hd, -, hl⟩
  have e : decodeHeader (kAlive ++ [0]) = .header ⟨19, 4⟩ := by decide
  rw [e] at hd
  cases hd
  exact absurd hl (by decide)
/-- Length 18, 4097, a body one byte short, a complete message of either kind. -/
theorem test_witness_ReadMessageFollowsItsSteps :
    decodeHeader badMark = .invalidMarker ∧
    decodeHeader (ff16 ++ [0, 0x12, 4]) = .header ⟨18, 4⟩ ∧
    decodeHeader (ff16 ++ [0x10, 1, 2]) = .header ⟨4097, 2⟩ ∧
    (decodeHeader (five.take 22) = .header ⟨23, 5⟩ ∧ (five.take 22).length < (23 : Half).toNat) ∧
    ((23 : Half).toNat ≤ five.length ∧ registered reg4 5 = false) ∧
    (decodeHeader kAlive = .header ⟨19, 4⟩ ∧ (19 : Half).toNat ≤ kAlive.length ∧ registered reg4 4 = true) := by decide
theorem test_witness_ReturnedCountsAndMessagesAreLegal :
    readMessage Config.recommended.lenLimit reg4 kAlive = .returns (some ⟨4, 19, []⟩) 19 ∧
    readMessage Config.recommended.lenLimit reg4 [] = .returns none 0 := by decide
theorem test_witness_TrailingBytesAreUnread :
    readMessage Config.recommended.lenLimit reg4 five = .returns none 23 ∧ (23 : Half) ≠ 0 := by decide
theorem test_witness_FramerRoundTrip :
    (5 : Byte) ≠ 0 ∧ registered (addType reg4 5) 5 = true ∧ [(1 : Byte)].length + 19 ≤ Config.recommended.lenLimit := by decide
theorem test_witness_RegistryLookup : (255 : Byte) ≠ 0 := by decide
theorem test_witness_ResetValues : Config.recommended.Wf := by decide
theorem test_witness_ResetInputIsAlwaysTaken : (given faulted .reset).port = [.reset] := by decide
theorem test_witness_StepRunsTheDecodedCommand :
    ((given (sealed kAlive) (code 5)).port = [.command ⟨5, 0, []⟩] ∧ decodeCommand ⟨5, 0, []⟩ = .ok .frame) ∧
    State.reset.port = [] := by decide
theorem test_witness_FrameStepRunsTheMessageAtTheFront :
    (given (sealed kAlive) (code 5)).port = [.command ⟨5, 0, []⟩] ∧ decodeCommand ⟨5, 0, []⟩ = .ok .frame ∧
    decode (sealed kAlive).regMap (.header (sealed kAlive).rxbuf) = .ok (.keepaliveMsg 19) := by decide
/-- The codes 0, 8 and 15 (R83). -/
theorem test_witness_ReservedCodesAreRefused :
    (given (sealed []) (code 0)).port = [.command ⟨0, 0, []⟩] ∧
    (∀ c ∈ [(0 : BitVec 4), 8, 15], c.toNat = 0 ∨ 8 ≤ c.toNat) := by decide
/-- A step answers, the host giving nothing, reset, or a command. -/
theorem test_witness_EachStepTakesOneInput :
    nextOf (step State.reset) = some State.reset ∧ nextOf (step (given (sealed []) .reset)) = some State.reset ∧
    (nextOf (step (given (sealed kAlive) (code 5)))).map State.port = some [] := by decide
theorem test_witness_RegisterTypeAddsOneType :
    State.reset.fault = .noFault ∧ State.reset.phase = .init ∧ (255 : Byte) ≠ 0 := by decide
theorem test_witness_SealClosesTheRegistry : State.reset.fault = .noFault ∧ State.reset.phase = .init := by decide
theorem test_witness_AppendStoresAtTheTail :
    (sealed kAlive).fault = .noFault ∧ (sealed kAlive).rxbuf.length + [(1 : Byte)].length ≤ (sealed kAlive).cfg.bufCap ∧
    0 < (sealed kAlive).rxbuf.length := by decide
theorem test_witness_AppendChunkingIsFree :
    (sealed kAlive).fault = .noFault ∧
    (sealed kAlive).rxbuf.length + ([(1 : Byte)] ++ [2, 3]).length ≤ (sealed kAlive).cfg.bufCap := by decide
theorem test_witness_PeekLatchesTheHeader :
    (sealed (kAlive.take 18)).fault = .noFault ∧ decodeHeader (kAlive.take 18) = .incomplete ∧
    decodeHeader (ff16 ++ [0, 0, 5]) = .header ⟨0, 5⟩ ∧ decodeHeader badMark = .invalidMarker := by decide
/-- Each clause, and within the first the three results and both kinds of NEED_MORE. -/
theorem test_witness_FrameLatchesTheOutcome :
    (Framing (sealed kAlive) ∧ readMessage (sealed kAlive).cfg.lenLimit (sealed kAlive).regMap kAlive =
      .returns (some ⟨4, 19, []⟩) 19) ∧
    readMessage 4096 reg4 five = .returns none 23 ∧ readMessage 4096 reg4 (five.take 18) = .returns none 0 ∧
    readMessage 4096 reg4 (five.take 22) = .returns none 0 ∧
    readMessage 4096 reg4 badMark = .invalidMarker ∧ readMessage 4096 reg4 (ff16 ++ [0x10, 1, 2]) = .invalidLength 4097 := by decide
theorem test_witness_AdvanceConsumesTheCount :
    (latched.fault = .noFault ∧ latched.res = some (.msg ⟨4, 19, []⟩ 19) ∧
      (consumed (.msg ⟨4, 19, []⟩ 19)).toNat ≤ latched.rxbuf.length) ∧
    (consumed .needMore).toNat ≤ (sealed []).rxbuf.length := by decide
theorem test_witness_AdvanceBeyondTheBufferStops :
    ({ latched with rxbuf := [] } : State).fault = .noFault ∧
    ({ latched with rxbuf := [] } : State).res = some (.msg ⟨4, 19, []⟩ 19) ∧
    ({ latched with rxbuf := [] } : State).rxbuf.length < (consumed (.msg ⟨4, 19, []⟩ 19)).toNat := by decide
theorem test_witness_EncodeAnswersAndChangesNothing :
    (1 : Byte) ≠ 0 ∧ ([] : Bytes).length + 19 ≤ faulted.cfg.lenLimit ∧ ∃ body : Bytes, faulted.cfg.lenLimit < body.length + 19 := by
  obtain ⟨b, hb⟩ := bytes_of_length 4078
  exact ⟨by decide, by decide, b, by rw [hb]; decide⟩
/-- A block that frames, at whose front stands a message of type `t` with two body bytes. -/
def front (t : Byte) : State := sealed (ff16 ++ [0, 0x15, t, 6, 2])
theorem test_witness_NamedMessagesAreDelivered :
    ∀ t ∈ [(1 : Byte), 2, 3, 4], Framing (front t) ∧ frontHeader (front t).rxbuf = some ⟨21, t⟩ ∧
      lengthLegal (front t).cfg.lenLimit 21 = true ∧ (21 : Half).toNat ≤ (front t).rxbuf.length ∧
      registered (front t).regMap t = true := by decide
theorem test_witness_OtherRegisteredTypesAreDelivered :
    let s : State := { front 255 with regMap := addType reg4 255 }
    Framing s ∧ frontHeader s.rxbuf = some ⟨21, 255⟩ ∧ lengthLegal s.cfg.lenLimit 21 = true ∧
      (21 : Half).toNat ≤ s.rxbuf.length ∧ registered s.regMap 255 = true ∧ 5 ≤ (255 : Byte).toNat := by decide
/-- Type 0 as UNRECOGNIZED, and the row OPEN where its type is not registered. -/
theorem test_witness_UnregisteredTypesAreSkipped :
    (AtFront (.unrecognized 0 21) ⟨21, 0⟩ (front 0) ∧ lengthLegal (front 0).cfg.lenLimit 21 = true ∧
      (21 : Half).toNat ≤ (front 0).rxbuf.length ∧ registered (front 0).regMap 0 = false) ∧
    (AtFront (.openMsg 21) ⟨21, 1⟩ { front 1 with regMap := 0 } ∧ registered 0 1 = false) := by decide
theorem test_witness_IncompleteMessagesWait :
    AtFront (.openMsg 29) ⟨29, 1⟩ (sealed (ff16 ++ [0, 0x1d, 1])) ∧
    lengthLegal (sealed (ff16 ++ [0, 0x1d, 1])).cfg.lenLimit 29 = true ∧
    (sealed (ff16 ++ [0, 0x1d, 1])).rxbuf.length < (29 : Half).toNat := by decide
/-- One below the least length, one above the greatest. -/
theorem test_witness_IllegalLengthsFaultTheStream :
    (AtFront (.keepaliveMsg 18) ⟨18, 4⟩ (sealed (ff16 ++ [0, 0x12, 4])) ∧ (18 : Half).toNat < 19) ∧
    (AtFront (.updateMsg 4097) ⟨4097, 2⟩ (sealed (ff16 ++ [0x10, 1, 2])) ∧
      (sealed []).cfg.lenLimit < (4097 : Half).toNat) := by decide
theorem test_witness_MismatchedMessagesHaveNoMeaning :
    messageHeader (.openMsg 19) = some ⟨19, 1⟩ ∧ Framing (sealed kAlive) ∧ frontHeader (sealed kAlive).rxbuf ≠ some ⟨19, 1⟩ := by
  decide
/-- Each refused case. -/
theorem test_witness_RefusalsLeaveTheStateUnchanged :
    (sealed []).fault = .noFault ∧ (sealed []).phase = .run ∧ (unsealed []).fault = .noFault ∧ (unsealed []).phase = .init ∧
    messageHeader (.keepaliveMsg 19) ≠ none ∧ (sealed []).res = none ∧
    ({ sealed [] with cfg := { Config.recommended with bufCap := 0 } } : State).cfg.bufCap < ([] : Bytes).length + [(1 : Byte)].length ∧
    (given (sealed []) (code 8)).port = [.command ⟨8, 0, []⟩] ∧ 8 ≤ (8 : BitVec 4).toNat := by decide
theorem test_witness_FaultedStateAnswersFaulted :
    faulted.fault ≠ .noFault ∧ (∀ t body, Instr.frame ≠ .encode t body) ∧
    (given faulted (code 0)).port = [.command ⟨0, 0, []⟩] ∧ (given faulted .reset).port = [.reset] :=
  ⟨by decide, by simp, by decide, by decide⟩
/-- Both stream faults. -/
theorem test_witness_StreamFaultEntry :
    (nextOf (exec .peek (sealed badMark))).map State.fault = some .invalidMarker ∧ (sealed badMark).fault = .noFault ∧
    (nextOf (exec .frame (sealed (ff16 ++ [0, 0x12, 4])))).map State.fault = some .invalidLength := by decide
theorem test_witness_OnlyResetClearsAFault :
    (nextOf (step (given faulted (code 5)))).isSome = true ∧ faulted.fault ≠ .noFault ∧ NotResetNext (given faulted (code 5)) :=
  ⟨by decide, by decide, by intro q h; simp [given, code] at h⟩

/-- The invariant in a state with a message latched. -/
theorem latched_inv : latched.Inv where
  cfgWf := by decide
  fits := by decide
  posBound := by decide
  nilUnregistered := by decide
  hdrFront := by rintro h ⟨⟩; decide
  resRun := by decide
  resFits := by rintro r ⟨⟩; decide
  resShape := by rintro r ⟨⟩; exact ⟨by decide, by decide, by decide⟩
  resCurrent := by rintro r ⟨⟩ -; decide
  faultPosIs := by decide
  faultRes := by decide
  markerFault := by decide
  lengthFault := by intro h; exact absurd h (by decide)

/-- The invariant in a faulted state. -/
theorem faulted_inv : faulted.Inv where
  cfgWf := by decide
  fits := by decide
  posBound := by decide
  nilUnregistered := by decide
  hdrFront := by rintro h ⟨⟩
  resRun := by decide
  resFits := by rintro r ⟨⟩
  resShape := by rintro r ⟨⟩
  resCurrent := by rintro r ⟨⟩
  faultPosIs := by decide
  faultRes := by decide
  markerFault := by decide
  lengthFault := by intro h; exact absurd h (by decide)

/-- The invariant does not depend on what the host gives next. -/
theorem latched_given_inv (q : List HostInput) : ({ latched with port := q } : State).Inv where
  cfgWf := latched_inv.cfgWf
  fits := latched_inv.fits
  posBound := latched_inv.posBound
  nilUnregistered := latched_inv.nilUnregistered
  hdrFront := latched_inv.hdrFront
  resRun := latched_inv.resRun
  resFits := latched_inv.resFits
  resShape := latched_inv.resShape
  resCurrent := latched_inv.resCurrent
  faultPosIs := latched_inv.faultPosIs
  faultRes := latched_inv.faultRes
  markerFault := latched_inv.markerFault
  lengthFault := latched_inv.lengthFault

theorem test_witness_EveryStepKeepsTheInvariant :
    (given latched (code 6)).Inv ∧ (nextOf (step (given latched (code 6)))).map State.pos = some 19 :=
  ⟨latched_given_inv _, by decide⟩
theorem test_witness_ResetMeetsTheInvariant :
    Config.recommended.Wf ∧ ({ Config.recommended with enforceMax := false, bufCap := 65535 } : Config).Wf := by decide
theorem test_witness_EveryStepAnswers : (given latched (code 6)).Inv ∧ (given latched (code 6)).port = [.command ⟨6, 0, []⟩] :=
  ⟨latched_given_inv _, by decide⟩
/-- SEAL changes the phase, REGISTER_TYPE the registry, FRAME runs in RUN. -/
theorem test_witness_RegistryIsFixedInRun :
    (nextOf (step (given State.reset (code 2)))).map State.phase = some .run ∧
    (nextOf (step (given State.reset (.command ⟨1, 5, []⟩)))).map State.regMap ≠ some State.reset.regMap ∧
    (nextOf (step (given (sealed []) (code 5)))).isSome = true ∧ NotResetNext (given State.reset (code 2)) :=
  ⟨by decide, by decide, by decide, by intro q h; simp [given, code] at h⟩
theorem test_witness_ConfigurationNeverChanges :
    (nextOf (step (given latched .reset))).isSome = true ∧ (nextOf (step (given latched (code 6)))).isSome = true := by decide
/-- A step that brings bytes and one that drops bytes. -/
theorem test_witness_StreamBytesAreConserved :
    (nextOf (step (given (sealed []) (.command ⟨3, 0, [1]⟩)))).map State.rxbuf = some [1] ∧
    (nextOf (step (given latched (code 6)))).map State.rxbuf = some [] ∧
    NotResetNext (given latched (code 6)) ∧ latched.pos < 2 ^ latched.cfg.wPos :=
  ⟨by decide, by decide, by intro q h; simp [given, code] at h, by decide⟩
theorem test_witness_PeekAndFrameAreIdempotent :
    (nextOf (exec .peek (sealed kAlive))).isSome = true ∧ (nextOf (exec .frame (sealed kAlive))).isSome = true ∧
    (nextOf (exec .frame (sealed badMark))).isSome = true := by decide
theorem test_witness_LatchedResultsStayCurrent :
    latched.Inv ∧ latched.res = some (.msg ⟨4, 19, []⟩ 19) ∧ Result.msg ⟨4, 19, []⟩ 19 ≠ .needMore ∧
    latched.rxbuf.length + five.length ≤ latched.cfg.bufCap :=
  ⟨latched_inv, by decide, by decide, by decide⟩
/-- NEED_MORE with room left; and, with a capacity below LEN_LIMIT ruled out, a full buffer whose message is complete. -/
theorem test_witness_NoDeadlockWhenTheBufferIsFull :
    (sealed (kAlive.take 18)).cfg.lenLimit ≤ (sealed (kAlive.take 18)).cfg.bufCap ∧ Framing (sealed (kAlive.take 18)) ∧
    (nextOf (exec .frame (sealed (kAlive.take 18)))).map State.res = some (some .needMore) ∧
    ∃ buf : Bytes, (sealed buf).rxbuf.length = (sealed buf).cfg.bufCap ∧ ∃ t, exec .frame (sealed buf) = .next t := by
  obtain ⟨z, hz⟩ := bytes_of_length 4077
  refine ⟨by decide, by decide, by decide, kAlive ++ z, ?_, ?_⟩
  · change (kAlive ++ z).length = 4096
    rw [List.length_append, hz]; decide
  · have h : ∀ buf, exec .frame (sealed buf) = runFramer (sealed buf) := fun _ => rfl
    rw [h]
    rcases runFramer_cases (sealed (kAlive ++ z)) with ⟨m, n, _, e⟩ | ⟨_, e⟩ | ⟨x, _, _, e⟩
    exacts [⟨_, e⟩, ⟨_, e⟩, ⟨_, e⟩]
theorem test_witness_ReadyMeansOneByteIsAccepted : rxReady (sealed []) = true ∧ rxReady faulted = false := by decide
/-- A skipped message and a delivered one, then the beginning of a third. -/
theorem test_witness_DrainDeliversEveryMessageInOrder :
    let s : State := { sealed (five ++ kAlive ++ [255]) with port := [inFrame, inAdvance, inFrame, inAdvance, inFrame] }
    let ms : List (Byte × Bytes) := [(5, [0x00, 0x01, 0x01, 0x80]), (4, [])]
    Framing s ∧ s.pos < 2 ^ s.cfg.wPos ∧ s.rxbuf = wireStream ms ++ [255] ∧
    (∀ m ∈ ms, m.2.length + 19 ≤ s.cfg.lenLimit) ∧ s.port = asmSteps ms.length ++ inFrame :: [] ∧
    0 < ms.length ∧ awaitsMore s.cfg.lenLimit [255] :=
  ⟨by decide, by decide, by decide, by decide, by decide, by decide, .inl (by decide)⟩
/-- A run that consumes a message and ends clean. -/
theorem test_witness_ConsumedResultsAreTheStreamsMessages :
    let s : State := { latched with port := [inAdvance] }
    s.Inv ∧ s.phase = .run ∧ HostInput.reset ∉ s.port.take 1 ∧
    (nextOf (runSteps 1 s)).map State.clean = some true ∧ delivered 1 s = [.msg ⟨4, 19, []⟩ 19] :=
  ⟨latched_given_inv _, by decide, by decide, by decide, by decide⟩
/-- An empty sealed block with inputs to come, in the invariant. -/
theorem empty_inv (q : List HostInput) : ({ sealed [] with port := q } : State).Inv where
  cfgWf := by change Config.recommended.Wf; decide
  fits := Nat.zero_le _
  posBound := Nat.two_pow_pos _
  nilUnregistered := resetRegistry_bit0 _
  hdrFront := by rintro h ⟨⟩
  resRun := fun _ => rfl
  resFits := by rintro r ⟨⟩
  resShape := by rintro r ⟨⟩
  resCurrent := by rintro r ⟨⟩
  faultPosIs := rfl
  faultRes := fun _ => rfl
  markerFault := by rintro ⟨⟩
  lengthFault := by rintro ⟨⟩
/-- The same 19 bytes in one chunk and in two. -/
theorem test_witness_ResultsDoNotDependOnTheChunking :
    let s : State := { sealed [] with port := [.command ⟨3, 0, kAlive⟩, inFrame, inAdvance] }
    let s' : State := { sealed [] with
      port := [.command ⟨3, 0, kAlive.take 7⟩, inFrame, .command ⟨3, 0, kAlive.drop 7⟩, inFrame, inAdvance] }
    s.Inv ∧ s'.Inv ∧ HostInput.reset ∉ s.port.take 3 ∧ HostInput.reset ∉ s'.port.take 5 ∧
    (nextOf (runSteps 3 s)).map State.rxbuf = some [] ∧ (nextOf (runSteps 5 s')).map State.rxbuf = some [] ∧
    accepted 3 s = kAlive ∧ accepted 5 s' = kAlive :=
  ⟨empty_inv _, empty_inv _, by decide, by decide, by decide, by decide, by decide, by decide⟩

end Sys2Proof.Tests
end

