-- ==== Sys2Proof/Proofs/Advance.lean ====
section
namespace Sys2Proof.Machine

/-- ADVANCE with no fault latched and RES valid is decided by the slice RXBUF[n : RXLEN] alone (R120, R9). -/
theorem exec_advance_latched {s : State} {r : Result} (hf : s.fault = .noFault) (hr : s.res = some r) :
    exec .advance s = (slice s.rxbuf (consumed r).toNat s.rxbuf.length).elim (.fault .sliceOutOfRange)
      (fun rest => .next ((s.consume rest (consumed r).toNat).respond .done .empty)) := by
  change execAdvance s = _
  simp only [execAdvance, hf, hr, ne_eq, not_true_eq_false, if_false]
  cases slice s.rxbuf (consumed r).toNat s.rxbuf.length <;> rfl

/-- Settles O28: a count above RXLEN leaves the slice ADVANCE keeps undefined (R9; log entry 10). -/
theorem advanceBeyondTheBufferStops : Obligations.AdvanceBeyondTheBufferStops := by
  intro s r hf hr hn
  rw [exec_advance_latched hf hr, slice_to_end_none hn, Option.elim_none]

end Sys2Proof.Machine
end

