-- ==== Sys2Proof/Proofs/Invariant.lean ====
section
/-! The invariant `State.Inv`: what a return of read_message guarantees, one lemma per operation on the state, then every effect and
every step. -/
namespace Sys2Proof

/-- A return of read_message inverted: nothing to consume yet, or a whole message of legal length stands at the front and the
registry alone decides whether it is skipped or delivered (R110 steps 4 to 6). -/
theorem readMessage_returns {limit : Nat} {reg : RegMap} {buf : Bytes} {m : Option Message} {n : Half}
    (e : readMessage limit reg buf = .returns m n) :
    (m = none ∧ n = 0) ∨
    ∃ h, decodeHeader buf = .header h ∧ n = h.length ∧ lengthLegal limit n = true ∧ n.toNat ≤ buf.length ∧
      ((registered reg h.type = false ∧ m = none) ∨
       (registered reg h.type = true ∧ m = some ⟨h.type, n, (buf.take n.toNat).drop 19⟩)) := by
  rcases readMessage_cases limit reg buf with
    ⟨_, hr⟩ | ⟨_, hr⟩ | ⟨h, hd, ⟨_, hr⟩ | ⟨_, _, hr⟩ | ⟨hl, hb, hg, hr⟩ | ⟨hl, hb, hg, hr⟩⟩ <;> rw [hr] at e <;> cases e
  · exact .inl ⟨rfl, rfl⟩
  · exact .inl ⟨rfl, rfl⟩
  · exact .inr ⟨h, hd, rfl, hl, hb, .inl ⟨hg, rfl⟩⟩
  · exact .inr ⟨h, hd, rfl, hl, hb, .inr ⟨hg, rfl⟩⟩

/-- A return that consumes something does not depend on the bytes behind the message (R63 (a)). -/
theorem readMessage_append {limit : Nat} {reg : RegMap} {buf : Bytes} {m : Option Message} {n : Half} (data : Bytes)
    (e : readMessage limit reg buf = .returns m n) (hn : n ≠ 0#16) :
    readMessage limit reg (buf ++ data) = .returns m n := by
  obtain ⟨_, h0⟩ | ⟨h, hd, rfl, hl, hb, _⟩ := readMessage_returns e
  · exact absurd h0 hn
  · have h19 := (lengthLegal_iff.1 hl).1
    have hd' : decodeHeader (buf ++ data) = .header h := (decodeHeader_append data (by omega)).trans hd
    have hb' : ¬ (buf ++ data).length < h.length.toNat := by rw [List.length_append]; omega
    rw [readMessage_of_header hd, if_neg (by omega : ¬ buf.length < h.length.toNat)] at e
    rw [readMessage_of_header hd', if_neg hb', List.take_append_of_le_length hb, e]

namespace Machine

/-! ### The Result that stands for a return of read_message -/

@[simp] theorem consumed_resultOf (m : Option Message) (n : Half) : consumed (resultOf m n) = n := by
  cases m with
  | some m => rfl
  | none => simp only [resultOf]; split <;> simp_all [consumed]

@[simp] theorem resultMessage_resultOf (m : Option Message) (n : Half) : resultMessage (resultOf m n) = m := by
  cases m with
  | some m => rfl
  | none => simp only [resultOf]; split <;> rfl

/-- What FRAME latches counts bytes that are in the buffer (R120). -/
theorem readMessage_returns_le {limit : Nat} {reg : RegMap} {buf : Bytes} {m : Option Message} {n : Half}
    (e : readMessage limit reg buf = .returns m n) : n.toNat ≤ buf.length := by
  obtain ⟨_, rfl⟩ | ⟨_, _, _, _, hb, _⟩ := readMessage_returns e
  · exact Nat.zero_le _
  · exact hb

/-- What FRAME latches has the shape of R25, R26 and R111. -/
theorem shaped_resultOf {limit : Nat} {reg : RegMap} {buf : Bytes} {m : Option Message} {n : Half}
    (e : readMessage limit reg buf = .returns m n) : (resultOf m n).shaped limit reg := by
  obtain ⟨rfl, rfl⟩ | ⟨h, _, rfl, hl, hb, ⟨_, rfl⟩ | ⟨hg, rfl⟩⟩ := readMessage_returns e
  · exact trivial
  · have hz : resultOf none h.length = .skip h.length := if_neg (ne_zero_of_lengthLegal hl)
    rw [hz]; exact hl
  · have h19 := (lengthLegal_iff.1 hl).1
    have hlen : h.length.toNat = ((buf.take h.length.toNat).drop 19).length + 19 := by simp; omega
    exact ⟨rfl, by rw [messageWf, hl, Bool.and_true, decide_eq_true hlen], hg⟩

/-! ### Each operation on the state keeps the invariant -/

section
variable {s : State}

theorem State.atReset_inv {c : Config} (hc : c.Wf) (q : List HostInput) : (State.atReset c q).Inv where
  cfgWf := hc
  fits := Memory.wf_nil _
  posBound := Nat.two_pow_pos _
  nilUnregistered := resetRegistry_bit0 c
  hdrFront := by rintro h ⟨⟩
  resRun := fun h => absurd rfl h
  resFits := by rintro r ⟨⟩
  resShape := by rintro r ⟨⟩
  resCurrent := by rintro r ⟨⟩
  faultPosIs := rfl
  faultRes := fun _ => rfl
  markerFault := by rintro ⟨⟩
  lengthFault := by rintro ⟨⟩

/-- The invariant does not speak of the port or the response. -/
theorem State.Inv.respond (hs : s.Inv) (r : Rsp) (p : Payload) : (s.respond r p).Inv := { hs with }

/-- In phase INIT no Result is latched (R120). -/
theorem State.Inv.res_init (hs : s.Inv) (hp : s.phase = .init) : s.res = none := by
  by_contra h
  exact Phase.noConfusion (hp.symm.trans (hs.resRun h))

theorem State.Inv.latchHeader (hs : s.Inv) (hf : s.fault = .noFault) : (s.latchHeader (frontHeader s.rxbuf)).Inv :=
  { hs with
    hdrFront := fun _ h => h
    markerFault := fun h => by simp [hf] at h
    lengthFault := fun h => by simp [hf] at h }

theorem State.Inv.latchFrame (hs : s.Inv) (hf : s.fault = .noFault) (hp : s.phase = .run) {m : Option Message} {n : Half}
    (hr : readMessage s.cfg.lenLimit s.regMap s.rxbuf = .returns m n) :
    (s.latchFrame (frontHeader s.rxbuf) (some (resultOf m n))).Inv :=
  { hs with
    hdrFront := fun _ h => h
    resRun := fun _ => hp
    resFits := by rintro r ⟨⟩; simpa using readMessage_returns_le hr
    resShape := by rintro r ⟨⟩; exact shaped_resultOf hr
    resCurrent := by rintro r ⟨⟩ -; simpa using hr
    faultRes := fun h => absurd hf h
    markerFault := fun h => by simp [hf] at h
    lengthFault := fun h => by simp [hf] at h }

/-- Entering a stream fault: RES is emptied, so what is left is what HDR says of the cause (R168). -/
theorem State.Inv.enterStreamFault (hs : s.Inv) {f : StreamFault}
    (hh : ∀ h, f.header = some h → frontHeader s.rxbuf = some h)
    (hm : f.code = .invalidMarker → f.header = none ∧ decodeHeader s.rxbuf = .invalidMarker)
    (hl : f.code = .invalidLength →
      s.phase = .run ∧ ∃ h, f.header = some h ∧ lengthLegal s.cfg.lenLimit h.length = false) :
    (s.enterStreamFault f).Inv :=
  { hs with
    hdrFront := hh
    resRun := fun h => absurd rfl h
    resFits := by rintro r ⟨⟩
    resShape := by rintro r ⟨⟩
    resCurrent := by rintro r ⟨⟩
    faultPosIs := by simp
    faultRes := fun _ => rfl
    markerFault := hm
    lengthFault := hl }

/-- Bytes at the tail leave the header at the front and what read_message returns there (R63 (a)). -/
theorem State.Inv.appendBytes (hs : s.Inv) (hf : s.fault = .noFault) {data : Bytes}
    (hc : s.rxbuf.length + data.length ≤ s.cfg.bufCap) : (s.appendBytes data).Inv :=
  { hs with
    fits := Memory.wf_memWrite hc
    hdrFront := fun h hh => frontHeader_append data (hs.hdrFront h hh)
    resFits := fun r hr => by
      have := hs.resFits r hr
      rw [State.appendBytes_rxbuf, List.length_append]; omega
    resCurrent := fun r hr hne =>
      readMessage_append data (hs.resCurrent r hr hne) (consumed_ne_zero (hs.resShape r hr) hne)
    markerFault := fun h => by simp [hf] at h }

/-- ADVANCE empties both latches (R120). -/
theorem State.Inv.consume (hs : s.Inv) (hf : s.fault = .noFault) (n : Nat) : (s.consume (s.rxbuf.drop n) n).Inv :=
  { hs with
    fits := Memory.wf_drop n hs.fits
    posBound := Nat.mod_lt _ (Nat.two_pow_pos _)
    hdrFront := by rintro h ⟨⟩
    resRun := fun h => absurd rfl h
    resFits := by rintro r ⟨⟩
    resShape := by rintro r ⟨⟩
    resCurrent := by rintro r ⟨⟩
    faultPosIs := by simpa [hf] using hs.faultPosIs
    faultRes := fun _ => rfl
    markerFault := fun h => by simp [hf] at h
    lengthFault := fun h => by simp [hf] at h }

/-- REG_MAP is written in phase INIT alone, where no Result depends on it (R29). -/
theorem State.Inv.register (hs : s.Inv) (hp : s.phase = .init) (t : Byte) : (s.register t).Inv :=
  { hs with
    nilUnregistered := addType_bit0 _ t hs.nilUnregistered
    resShape := fun r hr => by simp [hs.res_init hp] at hr
    resCurrent := fun r hr => by simp [hs.res_init hp] at hr }

theorem State.Inv.closeRegistry (hs : s.Inv) : s.closeRegistry.Inv :=
  { hs with
    resRun := fun _ => rfl
    lengthFault := fun h => ⟨rfl, (hs.lengthFault h).2⟩ }

end

/-! ### Every step keeps the invariant -/

theorem Effect.keeps_inv {i : Instr} {s u : State} (e : Effect i s u) (hs : s.Inv) : u.Inv := by
  cases e with
  | same => exact hs
  | peeked hf => exact hs.latchHeader hf
  | framed _ m n hf hp hr => exact hs.latchFrame hf hp hr
  | badMarker _ _ hm =>
    exact hs.enterStreamFault (by rintro h ⟨⟩) (fun _ => ⟨rfl, hm⟩) (by rintro ⟨⟩)
  | badLength _ h _ hp hh hl =>
    exact hs.enterStreamFault (by rintro h ⟨⟩; exact hh) (by rintro ⟨⟩) (fun _ => ⟨hp, h, rfl, hl⟩)
  | appended d hf hc => exact hs.appendBytes hf hc
  | consumedBy r hf => exact hs.consume hf _
  | typeAdded t _ hp => exact hs.register hp t
  | sealed => exact hs.closeRegistry

/-- Settles O40: reset meets the invariant, and each of the nine effects of a command keeps it. -/
theorem everyStepKeepsTheInvariant : Obligations.EveryStepKeepsTheInvariant := by
  intro s t hs e
  obtain ⟨_, rfl⟩ | ⟨q, _, rfl⟩ | ⟨_, _, _, rfl⟩ | ⟨_, _, i, _, _, u, r, p, he, rfl, _⟩ := step_next e
  · exact hs
  · exact State.atReset_inv hs.cfgWf q
  · exact hs.respond _ _
  · exact (he.keeps_inv hs).respond r p

/-- Settles O41: `State.atReset_inv`, for every configuration and for the recommended one. -/
theorem resetMeetsTheInvariant : Obligations.ResetMeetsTheInvariant :=
  ⟨fun _ q hc => State.atReset_inv hc q, State.atReset_inv (by decide) []⟩

end Machine
end Sys2Proof
end

