-- ==== Sys2Proof/Proofs/StateChanges.lean ====
section
/-! What a step can change, piece of state by piece (10_state.md): each fact is proved of `Effect` and lifted to steps by
`step_keeps_or_effect`; then the values after reset and the flag RX_READY. -/
namespace Sys2Proof.Machine

/-! ### What each effect leaves unchanged -/

section
variable {i : Instr} {s u : State}

theorem Effect.keeps_cfg (e : Effect i s u) : u.cfg = s.cfg := by cases e <;> rfl

/-- Every effect but `same` has the guard that no fault is latched (R169). -/
theorem Effect.eq_of_faulted (e : Effect i s u) (hf : s.fault ≠ .noFault) : u = s := by
  cases e with
  | same => rfl
  | peeked h | framed _ _ _ h | badMarker _ h | badLength _ _ h | appended _ h | consumedBy _ h | typeAdded _ h | sealed h =>
    exact absurd h hf

/-- PHASE and REG_MAP are written by SEAL and by REGISTER_TYPE alone, both in phase INIT (R28, R29). -/
theorem Effect.registry_cases (e : Effect i s u) :
    KeepsRegistry s u ∨
    (s.phase = .init ∧ i = .sealRegistry ∧ u.regMap = s.regMap) ∨
    (s.phase = .init ∧ (∃ b, i = .registerType b) ∧ u.phase = s.phase) := by
  cases e with
  | same | peeked | framed | badMarker | badLength | appended | consumedBy => exact .inl ⟨rfl, rfl⟩
  | typeAdded b _ hp => exact .inr (.inr ⟨hp, ⟨b, rfl⟩, rfl⟩)
  | sealed _ hp => exact .inr (.inl ⟨hp, rfl, rfl⟩)

/-- RXBUF and POS are written by APPEND, which brings bytes at the tail, and by ADVANCE, which drops bytes at the front (R57, R59). -/
theorem Effect.conserves_stream (e : Effect i s u) (hpos : s.pos < 2 ^ s.cfg.wPos) :
    ∃ brought dropped : Bytes, s.rxbuf ++ brought = dropped ++ u.rxbuf ∧
      u.pos = (s.pos + dropped.length) % 2 ^ s.cfg.wPos ∧
      (brought ≠ [] → i = .append brought) ∧ (dropped ≠ [] → i = .advance) := by
  have hmod : s.pos = (s.pos + 0) % 2 ^ s.cfg.wPos := (Nat.mod_eq_of_lt hpos).symm
  cases e with
  | same | peeked | framed | badMarker | badLength | typeAdded | sealed =>
    exact ⟨[], [], by simp, hmod, absurd rfl, absurd rfl⟩
  | appended data => exact ⟨data, [], rfl, hmod, fun _ => rfl, absurd rfl⟩
  | consumedBy r _ _ hn =>
    refine ⟨[], s.rxbuf.take (consumed r).toNat, by simp, ?_, absurd rfl, fun _ => rfl⟩
    rw [List.length_take_of_le hn]; rfl

end

/-- A step that is no reset leaves every piece of state, or is an effect of the command the host gave and a response. -/
theorem step_keeps_or_effect {s t : State} (e : step s = .next t) (hn : NotResetNext s) :
    KeepsAll s t ∨ ∃ i u r p, CommandNext s i ∧ Effect i s u ∧ t = u.respond r p := by
  obtain ⟨_, rfl⟩ | ⟨q, hq, _⟩ | ⟨_, _, _, rfl⟩ | ⟨w, q, i, hq, hd, u, r, p, he, ht, _⟩ := step_next e
  · exact .inl (by simp)
  · exact absurd hq (hn q)
  · exact .inl (by simp)
  · exact .inr ⟨i, u, r, p, ⟨w, q, hq, hd⟩, he, ht⟩

/-- Settles O39: no effect but `same` is possible while a fault is latched. -/
theorem onlyResetClearsAFault : Obligations.OnlyResetClearsAFault := by
  intro s t e hf hn
  obtain hk | ⟨i, u, r, p, _, he, rfl⟩ := step_keeps_or_effect e hn
  · exact hk
  · rw [he.eq_of_faulted hf]; simp

/-- Settles O43, by the three ways a command can treat PHASE and REG_MAP. -/
theorem registryIsFixedInRun : Obligations.RegistryIsFixedInRun := by
  intro s t e hn
  obtain ⟨_, _, _, ⟨hp, hg⟩, _⟩ | ⟨i, u, r, p, hc, he, rfl⟩ := step_keeps_or_effect e hn
  · exact ⟨fun h => ⟨hp.trans h, hg⟩, absurd hp, absurd hg⟩
  · obtain ⟨hp, hg⟩ | ⟨hi, rfl, hg⟩ | ⟨hi, ⟨b, rfl⟩, hp⟩ := he.registry_cases
    · exact ⟨fun h => ⟨hp.trans h, hg⟩, absurd hp, absurd hg⟩
    · exact ⟨fun h => by simp [hi] at h, fun _ => hc, absurd hg⟩
    · exact ⟨fun h => by simp [hi] at h, absurd hp, fun _ => ⟨b, hc⟩⟩

/-- Settles O44: neither reset nor an effect writes the configuration. -/
theorem configurationNeverChanges : Obligations.ConfigurationNeverChanges := by
  intro s t e
  obtain ⟨_, rfl⟩ | ⟨_, _, rfl⟩ | ⟨_, _, _, rfl⟩ | ⟨_, _, _, _, _, u, _, _, he, rfl, _⟩ := step_next e
  · rfl
  · rfl
  · rfl
  · exact he.keeps_cfg

/-- Settles O45: a step but reset moves bytes only by the effect of its command. -/
theorem streamBytesAreConserved : Obligations.StreamBytesAreConserved := by
  intro s t e hn hpos
  obtain ⟨_, ⟨hb, hp⟩, _⟩ | ⟨i, u, r, p, hc, he, rfl⟩ := step_keeps_or_effect e hn
  · exact ⟨[], [], by simp [hb], hp.trans (Nat.mod_eq_of_lt hpos).symm, absurd rfl, absurd rfl⟩
  · obtain ⟨brought, dropped, hb, hp, ha, hd⟩ := he.conserves_stream hpos
    exact ⟨brought, dropped, hb, hp, fun h => ha h ▸ hc, fun h => hd h ▸ hc⟩

/-! ### Reset values and RX_READY -/

theorem resetRegistry_getLsbD {c : Config} (h0 : c.regReset.getLsbD 0 = false) (t : Byte) :
    (resetRegistry c).getLsbD t.toNat = c.regReset.getLsbD t.toNat := by
  by_cases ht : t = 0#8
  · subst ht; exact (resetRegistry_bit0 c).trans h0.symm
  · rw [← registered_of_ne ht, registered_resetRegistry c ht]

/-- Settles O15: the field values are those of `State.atReset`; RX_READY is 1 because R187 gives a capacity of at least LEN_LIMIT. -/
theorem resetValues : Obligations.ResetValues := by
  rintro c q ⟨hcap, _, h0⟩
  have hpos : 0 < c.bufCap := by rcases lenLimit_cases c with h | h <;> omega
  exact ⟨rfl, rfl, rfl, rfl, rfl, resetRegistry_getLsbD h0, resetRegistry_bit0 c, rfl, rfl, rfl, rfl, rfl,
    by simp [rxReady, hpos], rfl⟩

theorem rxReady_iff {s : State} : rxReady s = true ↔ s.fault = .noFault ∧ s.rxbuf.length < s.cfg.bufCap := by
  simp [rxReady]

/-- APPEND of bytes that fit is accepted (R118). -/
theorem exec_append_fits {s : State} {data : Bytes} (hf : s.fault = .noFault)
    (hc : s.rxbuf.length + data.length ≤ s.cfg.bufCap) :
    exec (.append data) s = .next ((s.appendBytes data).respond .done .empty) := by
  change execAppend data s = _
  rw [execAppend, if_neg (not_not.2 hf), if_neg (by omega)]

/-- APPEND in a faulted block, or of more bytes than fit, answers FAULTED or REFUSED and stores nothing (R118). -/
theorem exec_append_refused {s : State} {data : Bytes}
    (h : ¬ (s.fault = .noFault ∧ s.rxbuf.length + data.length ≤ s.cfg.bufCap)) :
    ∃ r, r ≠ .done ∧ exec (.append data) s = .next (s.respond r .empty) := by
  change ∃ r : Rsp, r ≠ .done ∧ execAppend data s = .next (s.respond r .empty)
  by_cases hf : s.fault = .noFault
  · have hc : s.cfg.bufCap < s.rxbuf.length + data.length := by by_contra hc; exact h ⟨hf, by omega⟩
    exact ⟨.refused, by decide, by rw [execAppend, if_neg (not_not.2 hf), if_pos hc]⟩
  · exact ⟨.faulted, by decide, by rw [execAppend, if_pos hf]⟩

/-- Settles O49: RX_READY is the guard of APPEND for one byte. -/
theorem readyMeansOneByteIsAccepted : Obligations.ReadyMeansOneByteIsAccepted := by
  intro s b
  by_cases h : rxReady s = true
  · obtain ⟨hf, hc⟩ := rxReady_iff.1 h
    refine ⟨_, exec_append_fits hf (data := [b]) hc, fun _ => ⟨rfl, rfl, rfl⟩, fun h' => ?_⟩
    simp [h] at h'
  · obtain ⟨r, hr, e⟩ := exec_append_refused (data := [b]) (mt rxReady_iff.2 h)
    exact ⟨_, e, fun h' => absurd h' h, fun _ => ⟨by simp, by simp [hr]⟩⟩

end Sys2Proof.Machine
end

