-- ==== Sys2Proof/Proofs/Commands.lean ====
section
/-! The commands of the port, case by case: what PEEK and FRAME answer (40_header_codec.md R96, 41_framer.md R119), and that in a state
of the invariant every command answers. -/
namespace Sys2Proof.Machine

variable {s : State}

/-! ### PEEK (R96) -/

theorem exec_peek_faulted (hf : s.fault ≠ .noFault) : exec .peek s = .next (s.respondPeek .faulted) := if_pos hf

theorem exec_peek_latches (hf : s.fault = .noFault) (hm : decodeHeader s.rxbuf ≠ .invalidMarker) :
    exec .peek s = .next ((s.latchHeader (frontHeader s.rxbuf)).respondPeek .done) := by
  change execPeek s = _
  rw [execPeek, if_neg (not_not.2 hf), frontHeader]
  cases hd : decodeHeader s.rxbuf with
  | incomplete => rfl
  | header h => rfl
  | invalidMarker => exact absurd hd hm

theorem exec_peek_badMarker (hf : s.fault = .noFault) (hm : decodeHeader s.rxbuf = .invalidMarker) :
    exec .peek s = .next ((s.enterStreamFault .invalidMarker).respondPeek .faulted) := by
  change execPeek s = _
  rw [execPeek, if_neg (not_not.2 hf), hm]

/-! ### FRAME (R119) -/

theorem exec_frame_faulted (hf : s.fault ≠ .noFault) : exec .frame s = .next (s.respondFrame .faulted) := if_pos hf

theorem exec_frame_init (hf : s.fault = .noFault) (hp : s.phase = .init) :
    exec .frame s = .next (s.respondFrame .refused) := by
  change execFrame s = _
  rw [execFrame, if_neg (not_not.2 hf), if_pos hp]

theorem exec_frame_framing (h : Framing s) : exec .frame s = runFramer s := by
  obtain ⟨hf, hp⟩ := h
  change execFrame s = _
  rw [execFrame, if_neg (not_not.2 hf), if_neg (by simp [hp])]

theorem exec_frame_returns {m : Option Message} {n : Half} (h : Framing s)
    (hr : readMessage s.cfg.lenLimit s.regMap s.rxbuf = .returns m n) :
    exec .frame s = .next ((s.latchFrame (frontHeader s.rxbuf) (some (resultOf m n))).respondFrame .done) := by
  rw [exec_frame_framing h, runFramer, hr]

/-! ### Every command answers -/

theorem exec_peek_answers (s : State) : ∃ t, exec .peek s = .next t := by
  by_cases hf : s.fault = .noFault
  · by_cases hm : decodeHeader s.rxbuf = .invalidMarker
    · exact ⟨_, exec_peek_badMarker hf hm⟩
    · exact ⟨_, exec_peek_latches hf hm⟩
  · exact ⟨_, exec_peek_faulted hf⟩

/-- FRAME always answers, since read_message calls the decoder within its precondition (R112). -/
theorem exec_frame_answers (s : State) : ∃ t, exec .frame s = .next t := by
  by_cases hf : s.fault = .noFault
  · by_cases hp : s.phase = .init
    · exact ⟨_, exec_frame_init hf hp⟩
    · rw [exec_frame_framing ⟨hf, phase_ne_init hp⟩]
      obtain ⟨_, _, _, h⟩ | ⟨_, h⟩ | ⟨_, _, _, h⟩ := runFramer_cases s <;> exact ⟨_, h⟩
  · exact ⟨_, exec_frame_faulted hf⟩

theorem exec_append_answers (data : Bytes) (s : State) : ∃ t, exec (.append data) s = .next t := by
  by_cases h : s.fault = .noFault ∧ s.rxbuf.length + data.length ≤ s.cfg.bufCap
  · exact ⟨_, exec_append_fits h.1 h.2⟩
  · obtain ⟨r, _, e⟩ := exec_append_refused h
    exact ⟨_, e⟩

/-- ADVANCE with nothing latched is refused (R120). -/
theorem exec_advance_unlatched (hf : s.fault = .noFault) (hr : s.res = none) :
    exec .advance s = .next (s.respond .refused .empty) := by
  change execAdvance s = _
  rw [execAdvance, if_neg (not_not.2 hf), hr]

/-- ADVANCE answers where the latched count is no more than RXLEN (R120). -/
theorem exec_advance_answers (h : ∀ r, s.res = some r → (consumed r).toNat ≤ s.rxbuf.length) :
    ∃ t, exec .advance s = .next t := by
  by_cases hf : s.fault = .noFault
  · cases hr : s.res with
    | none => exact ⟨_, exec_advance_unlatched hf hr⟩
    | some r => exact ⟨_, by rw [exec_advance_latched hf hr, slice_to_end (h r hr)]; rfl⟩
  · exact ⟨_, if_pos hf⟩

/-- Of the commands of the port ADVANCE alone needs the invariant. -/
theorem exec_command_answers {i : Instr} (hs : s.Inv) (hi : messageHeader i = none) : ∃ t, exec i s = .next t := by
  cases i with
  | openMsg | updateMsg | notificationMsg | keepaliveMsg | unrecognized | registeredOther => cases hi
  | registerType b =>
    simp only [exec, execRegisterType]
    split_ifs <;> exact ⟨_, rfl⟩
  | sealRegistry =>
    simp only [exec, execSeal]
    split_ifs <;> exact ⟨_, rfl⟩
  | append data => exact exec_append_answers data s
  | peek => exact exec_peek_answers s
  | frame => exact exec_frame_answers s
  | advance => exact exec_advance_answers hs.resFits
  | encode => exact ⟨_, rfl⟩

end Sys2Proof.Machine
end

