-- ==== Sys2Proof/Proofs/Steps.lean ====
section
/-! One step (20_memory.md R60): what it is for each input of the host, and that its response takes that input off the port. -/
namespace Sys2Proof.Machine

/-! ### The step for each input of the host -/

section
variable {s : State} {q : List HostInput} {w : PortWord}

theorem step_nothing (hp : s.port = []) : step s = .next s := by simp [step, fetch, hp]

theorem step_reset (hp : s.port = .reset :: q) : step s = .next s.resetInput := by simp [step, fetch, hp]

theorem step_command {i : Instr} (hp : s.port = .command w :: q) (hd : decodeCommand w = .ok i) : step s = exec i s := by
  simp [step, fetch, hp, hd]

theorem step_reserved {x : DecodeError} (hp : s.port = .command w :: q) (hd : decodeCommand w = .error x) :
    step s = .next (refuseReserved s) := by
  simp [step, fetch, hp, hd]

end

/-- Settles O17, by the steps for a command and for no input. -/
theorem stepRunsTheDecodedCommand : Obligations.StepRunsTheDecodedCommand :=
  ⟨fun _ _ _ _ => step_command, fun _ => step_nothing⟩

/-! ### What a response completes -/

/-- No effect touches the port: the command leaves it with the response (R60). -/
theorem Effect.keeps_port {i : Instr} {s u : State} (e : Effect i s u) : u.port = s.port := by cases e <;> rfl

theorem Responds.port {i : Instr} {s t : State} (h : Responds i s t) : t.port = s.port.tail := by
  obtain ⟨u, r, p, he, rfl, _⟩ := h
  rw [State.respond_port, he.keeps_port]

theorem Responds.rsp_ne_none {i : Instr} {s t : State} (h : Responds i s t) : t.rsp ≠ none := by
  obtain ⟨u, r, p, _, rfl, _⟩ := h
  exact Option.some_ne_none _

/-- Settles O20: reset and every response take the head of the port, and with no input there is none to take. -/
theorem eachStepTakesOneInput : Obligations.EachStepTakesOneInput := by
  intro s t e
  obtain ⟨hp, rfl⟩ | ⟨q, hp, rfl⟩ | ⟨_, _, _, rfl⟩ | ⟨_, _, _, _, _, h⟩ := step_next e
  · rw [hp]; rfl
  · rw [hp]; rfl
  · rfl
  · exact h.port

/-- Settles O42, input by input; a reserved code is answered too (R143). -/
theorem everyStepAnswers : Obligations.EveryStepAnswers := by
  intro s hs
  cases hp : s.port with
  | nil => exact ⟨s, step_nothing hp, nofun⟩
  | cons x q =>
    cases x with
    | reset => exact ⟨_, step_reset hp, nofun⟩
    | command w =>
      cases hd : decodeCommand w with
      | error x => exact ⟨_, step_reserved hp hd, fun _ _ _ => Option.some_ne_none _⟩
      | ok i =>
        obtain ⟨t, e⟩ := exec_command_answers hs (messageHeader_of_command hd)
        exact ⟨t, (step_command hp hd).trans e, fun _ _ _ => (exec_next e).rsp_ne_none⟩

end Sys2Proof.Machine
end

