-- ==== Sys2Proof/Proofs/Latches.lean ====
section
/-! The latches HDR and RES (20_memory.md R56, R63): PEEK or FRAME issued again writes what it wrote before, and a latched SKIP or MSG
outlives an APPEND. -/
namespace Sys2Proof.Machine

variable {s t : State}

/-! ### PEEK and FRAME issued twice (R56) -/

/-- While a fault is latched PEEK and FRAME answer FAULTED and change nothing (R169). -/
theorem exec_peek_or_frame_faulted {i : Instr} (hi : i = .peek ∨ i = .frame) (hf : s.fault ≠ .noFault) :
    ∃ u, exec i s = .next u ∧ KeepsAll s u := by
  obtain rfl | rfl := hi
  · exact ⟨_, exec_peek_faulted hf, by simp⟩
  · exact ⟨_, exec_frame_faulted hf, by simp⟩

/-- A second PEEK decodes the same buffer, or finds the fault the first one latched. -/
theorem exec_peek_again (e : exec .peek s = .next t) : ∃ u, exec .peek t = .next u ∧ KeepsAll t u := by
  by_cases hf : s.fault = .noFault
  · by_cases hm : decodeHeader s.rxbuf = .invalidMarker
    · rw [exec_peek_badMarker hf hm] at e
      cases e
      exact exec_peek_or_frame_faulted (.inl rfl) (by simp)
    · rw [exec_peek_latches hf hm] at e
      cases e
      exact ⟨_, exec_peek_latches hf hm, by simp⟩
  · rw [exec_peek_faulted hf] at e
    cases e
    exact exec_peek_or_frame_faulted (.inl rfl) hf

/-- A second FRAME reads the same buffer under the same registry, or finds the fault the first one latched. -/
theorem exec_frame_again (e : exec .frame s = .next t) : ∃ u, exec .frame t = .next u ∧ KeepsAll t u := by
  by_cases hf : s.fault = .noFault
  · by_cases hp : s.phase = .init
    · rw [exec_frame_init hf hp] at e
      cases e
      exact ⟨_, exec_frame_init hf hp, by simp⟩
    · have hs : Framing s := ⟨hf, phase_ne_init hp⟩
      rw [exec_frame_framing hs] at e
      obtain ⟨m, n, hr, h⟩ | ⟨_, h⟩ | ⟨x, _, _, h⟩ := runFramer_cases s <;> rw [h] at e <;> cases e
      · exact ⟨_, exec_frame_returns hs hr, by simp⟩
      · exact exec_peek_or_frame_faulted (.inr rfl) (by simp)
      · exact exec_peek_or_frame_faulted (.inr rfl) (by simp)
  · rw [exec_frame_faulted hf] at e
    cases e
    exact exec_peek_or_frame_faulted (.inr rfl) hf

/-- Settles O46, a lemma per command. -/
theorem peekAndFrameAreIdempotent : Obligations.PeekAndFrameAreIdempotent := by
  rintro i s t (rfl | rfl) e
  · exact exec_peek_again e
  · exact exec_frame_again e

/-! ### A latched SKIP or MSG (R63 (a)) -/

/-- A Result of the shape of R25 is the one its own Message and count stand for. -/
theorem resultOf_of_shaped {limit : Nat} {reg : RegMap} {r : Result} (h : r.shaped limit reg) :
    resultOf (resultMessage r) (consumed r) = r := by
  cases r with
  | needMore => rfl
  | skip n => exact if_neg (ne_zero_of_lengthLegal h)
  | msg m n => rfl

/-- Where RES is valid the block frames: a fault empties RES, and in phase INIT it is never written (R120, R168). -/
theorem State.Inv.framing_of_res (hs : s.Inv) (h : s.res ≠ none) : Framing s :=
  ⟨by_contra fun hf => h (hs.faultRes hf), hs.resRun h⟩

/-- FRAME issued while a SKIP or MSG is latched latches it again (R63 (a)). -/
theorem exec_frame_latched (hs : s.Inv) {r : Result} (hr : s.res = some r) (hne : r ≠ .needMore) :
    ∃ t, exec .frame s = .next t ∧ t.res = some r := by
  have hfr : Framing s := hs.framing_of_res (by simp [hr])
  refine ⟨_, exec_frame_returns hfr (hs.resCurrent r hr hne), ?_⟩
  rw [State.respondFrame_res, State.latchFrame_res, resultOf_of_shaped (hs.resShape r hr)]

/-- Settles O47: APPEND keeps RES and the invariant, which says that RES is what read_message returns. -/
theorem latchedResultsStayCurrent : Obligations.LatchedResultsStayCurrent := by
  intro s r data hs hr hne hc
  have hf := (hs.framing_of_res (by simp [hr])).1
  have hinv : ((s.appendBytes data).respond .done .empty).Inv := (hs.appendBytes hf hc).respond _ _
  obtain ⟨v, hv, hres⟩ := exec_frame_latched hinv hr hne
  exact ⟨_, v, exec_append_fits hf hc, hr, hv, hres⟩

end Sys2Proof.Machine
end

