-- ==== Sys2Proof/Proofs/Encoding.lean ====
section
/-! The decoder and the encoder against each other (30_encoding.md R70 to R83): the two spaces of the opcode table apart, each with
what decodes there and what does not. -/
namespace Sys2Proof

variable {reg : RegMap} {i : Instr}

/-! ### The message rows -/

theorem encode_of_messageHeader {h : Header} (hm : Machine.messageHeader i = some h) : encode i = .header (headerBytes h) := by
  cases i <;> simp [Machine.messageHeader] at hm <;> subst hm <;> rfl

/-- A message instruction that is its own row is the row its header selects (R76, R77, R117). -/
theorem messageRow_of_rowFits {h : Header} (hm : Machine.messageHeader i = some h) (hr : i.rowFits reg = true) :
    messageRow reg h = i := by
  cases i <;> simp [Machine.messageHeader] at hm <;> subst hm
  case registeredOther t length =>
    obtain ⟨hreg, h5⟩ : registered reg t = true ∧ 5 ≤ t.toNat := by simpa [Instr.rowFits] using hr
    have named : ∀ k : Byte, k.toNat < 5 → t ≠ k := by rintro k hk rfl; omega
    simp [messageRow, hreg, named]
  case unrecognized t length =>
    have hreg : registered reg t = false := by simpa [Instr.rowFits] using hr
    simp [messageRow, hreg]
  all_goals simpa [Instr.rowFits, messageRow] using hr

theorem decode_header_eq_ok {bytes : Bytes} :
    decode reg (.header bytes) = .ok i ↔ ∃ h, decodeHeader bytes = .header h ∧ messageRow reg h = i := by
  simp only [decode, decodeMessage]
  cases decodeHeader bytes <;> simp

/-- Decoding reads nothing behind the header (R75, R92 corner case ii). -/
theorem decode_headerBytes (h : Header) (rest : Bytes) :
    decode reg (.header (headerBytes h ++ rest)) = .ok (messageRow reg h) :=
  decode_header_eq_ok.2 ⟨h, decodeHeader_headerBytes h rest, rfl⟩

theorem decode_header_shortHeader {bytes : Bytes} :
    decode reg (.header bytes) = .error .shortHeader ↔ decodeHeader bytes = .incomplete := by
  simp only [decode, decodeMessage]
  cases decodeHeader bytes <;> simp

theorem decode_header_illegalMarker {bytes : Bytes} :
    decode reg (.header bytes) = .error .illegalMarker ↔ decodeHeader bytes = .invalidMarker := by
  simp only [decode, decodeMessage]
  cases decodeHeader bytes <;> simp

/-! ### The commands -/

/-- Every command is its own row. -/
theorem rowFits_of_command (hm : Machine.messageHeader i = none) : i.rowFits reg = true := by
  cases i <;> simp [Machine.messageHeader] at hm <;> rfl

/-- A command's code is a transaction that decodes to it (R82). -/
theorem encode_of_command (hm : Machine.messageHeader i = none) : ∃ w, encode i = .command w ∧ decodeCommand w = .ok i := by
  cases i <;> simp [Machine.messageHeader] at hm <;> exact ⟨_, rfl, rfl⟩

/-- The operand lines a command does not read may differ, the CMD may not (R82). -/
theorem encode_decodeCommand {w : PortWord} (hd : decodeCommand w = .ok i) : ∃ v, encode i = .command v ∧ v.cmd = w.cmd := by
  unfold decodeCommand at hd
  repeat' split at hd
  all_goals cases hd
  all_goals exact ⟨_, rfl, Eq.symm ‹_›⟩

/-- The codes 0x1 to 0x7 each select a command, so no other refusal is possible (R83). -/
theorem decodeCommand_reservedCommand {w : PortWord} :
    decodeCommand w = .error .reservedCommand ↔ w.cmd.toNat = 0 ∨ 8 ≤ w.cmd.toNat := by
  refine ⟨fun he => ?_, decodeCommand_reserved⟩
  unfold decodeCommand at he
  repeat' split at he
  case isFalse h1 h2 h3 h4 h5 h6 h7 => bv_omega
  all_goals cases he

/-! ### The obligations -/

/-- Settles O2: a message's code is the bytes of its header, which select its row; a command's code selects it by its CMD. -/
theorem decodeInvertsEncode : Obligations.DecodeInvertsEncode := by
  intro reg i hr
  cases hm : Machine.messageHeader i with
  | some h =>
    have hdec (rest : Bytes) : decode reg (.header (headerBytes h ++ rest)) = .ok i := by
      rw [decode_headerBytes, messageRow_of_rowFits hm hr]
    rw [encode_of_messageHeader hm]
    refine ⟨by simpa using hdec [], ?_⟩
    rintro bytes rest ⟨⟩
    exact ⟨headerBytes_length h, hdec rest⟩
  | none =>
    obtain ⟨w, hw, hd⟩ := encode_of_command hm
    rw [hw]
    exact ⟨hd, nofun⟩

/-- Settles O3: bytes that decode begin with the header whose row they give, and a command keeps its CMD. -/
theorem encodeInvertsDecode : Obligations.EncodeInvertsDecode := by
  refine fun reg i => ⟨fun bytes hd => ?_, fun w hd => ⟨?_, encode_decodeCommand hd⟩⟩
  · obtain ⟨h, hh, rfl⟩ := decode_header_eq_ok.1 hd
    obtain ⟨rest, rfl⟩ := decodeHeader_eq_header.1 hh
    refine ⟨rowFits_messageRow reg h, ?_⟩
    rw [encode_messageRow, List.take_left' (headerBytes_length h)]
  · exact rowFits_of_command (messageHeader_of_command hd)

/-- Settles O4, a refusal at a time; the marker is read byte for byte. -/
theorem decodeRefusesExactlyTheIllegal : Obligations.DecodeRefusesExactlyTheIllegal := by
  refine fun reg => ⟨fun bytes => ?_, fun bytes => ?_, fun w => decodeCommand_reservedCommand⟩
  · rw [decode_header_shortHeader, decodeHeader_incomplete]
  · rw [decode_header_illegalMarker, decodeHeader_invalidMarker, Ne, take_eq_marker]
    simp only [not_forall, exists_prop, ne_eq]

/-- Settles O1: closed words, each evaluated. -/
theorem wordsWrittenOutDecode : Obligations.WordsWrittenOutDecode := by
  refine ⟨?_, ?_, ?_, ?_, ?_, ?_, rfl, rfl, rfl, rfl, rfl, rfl, rfl⟩ <;> decide

end Sys2Proof
end

