-- ==== Sys2Proof/Proofs/MessageRows.lean ====
section
/-! The message rows at the front of RXBUF (30_encoding.md R77, R79; 41_framer.md R119): each is the FRAME that finds it, so its outcome is
what read_message answers for that header. -/
namespace Sys2Proof.Machine

variable {s : State}

/-- A message row at the front of RXBUF is the FRAME that finds it (R119; log entry 9). -/
theorem exec_message_eq_exec_frame {i : Instr} {h : Header} (hm : messageHeader i = some h) (hh : frontHeader s.rxbuf = some h) :
    exec i s = exec .frame s :=
  (exec_message hm s).trans (runMessage_eq_execFrame hh)

/-- FRAME on a header whose length is out of range enters the stream fault INVALID_LENGTH (R79, R163). -/
theorem exec_frame_badLength {h : Header} (hs : Framing s) (hh : frontHeader s.rxbuf = some h)
    (hl : lengthLegal s.cfg.lenLimit h.length = false) :
    exec .frame s = .next ((s.enterStreamFault (.invalidLength (some h))).respondFrame .faulted) := by
  rw [exec_frame_framing hs, runFramer, readMessage_of_header (frontHeader_eq_some.1 hh), if_pos hl, hh]

/-- FRAME on a whole message of a type that is not registered skips it (R110 step 5). -/
theorem exec_frame_skips {h : Header} (hs : Framing s) (hh : frontHeader s.rxbuf = some h)
    (hl : lengthLegal s.cfg.lenLimit h.length = true) (hb : h.length.toNat ≤ s.rxbuf.length)
    (hr : registered s.regMap h.type = false) :
    exec .frame s = .next ((s.latchFrame (some h) (some (.skip h.length))).respondFrame .done) := by
  have hread : readMessage s.cfg.lenLimit s.regMap s.rxbuf = .returns none h.length := by
    rw [readMessage_of_header (frontHeader_eq_some.1 hh), if_neg (by simp [hl]), if_neg (by omega), if_pos hr]
  have hskip : resultOf none h.length = .skip h.length := if_neg (ne_zero_of_lengthLegal hl)
  rw [exec_frame_returns hs hread, hh, hskip]

/-- Settles O32: the row is a FRAME, and FRAME skips a type that is not registered. -/
theorem unregisteredTypesAreSkipped : Obligations.UnregisteredTypesAreSkipped := by
  rintro s i h ⟨hm, hs, hh⟩ hl hb hr
  refine ⟨_, (exec_message_eq_exec_frame hm hh).trans (exec_frame_skips hs hh hl hb hr), ?_⟩
  simp

/-- Settles O34: the row is a FRAME, and FRAME enters the stream fault before it looks at the body or the registry (R167). -/
theorem illegalLengthsFaultTheStream : Obligations.IllegalLengthsFaultTheStream := by
  rintro s i h ⟨hm, hs, hh⟩ hl
  refine ⟨_, (exec_message_eq_exec_frame hm hh).trans (exec_frame_badLength hs hh (lengthLegal_eq_false.2 hl)), ?_⟩
  simp [StreamFault.code, StreamFault.header]

end Sys2Proof.Machine
end

