-- ==== Sys2Proof/Proofs/HeaderCodec.lean ====
section
/-! The header codec (40_header_codec.md): the 19 header bytes one by one, encode_header outcome by outcome, and the two commands that
run the codec. -/
namespace Sys2Proof

/-! ### The header bytes (R70, R72) -/

/-- The two bytes of a length are its big-endian digits (R72). -/
theorem hi8_mul_add_lo8 (v : Half) : (hi8 v).toNat * 256 + (lo8 v).toNat = v.toNat := by
  rw [← be16_toNat, be16_hi8_lo8]

/-- Behind the marker stand the two bytes of the length and the type byte. -/
theorem headerBytes_append_getElem? (h : Header) (rest : Bytes) :
    (headerBytes h ++ rest)[16]? = some (hi8 h.length) ∧ (headerBytes h ++ rest)[17]? = some (lo8 h.length) ∧
      (headerBytes h ++ rest)[18]? = some h.type := by
  simp [headerBytes, marker]

theorem headerBytes_eq (h : Header) :
    headerBytes h = List.replicate 16 0xFF ++ [hi8 h.length, lo8 h.length] ++ [h.type] := by
  simp [headerBytes, marker, markerByte]

/-- 19 bytes behind a good marker are the bytes of a header (R92 step 3). -/
theorem exists_header_of_goodMarker {buf : Bytes} (hlen : 19 ≤ buf.length) (hm : buf.take 16 = marker) :
    ∃ h rest, buf = headerBytes h ++ rest := by
  cases hd : decodeHeader buf with
  | incomplete => exact absurd (decodeHeader_incomplete.1 hd) (Nat.not_lt.2 hlen)
  | invalidMarker => exact absurd hm (decodeHeader_invalidMarker.1 hd).2
  | header h => exact ⟨h, decodeHeader_eq_header.1 hd⟩

/-! ### The exceptions of encode_header (R90) -/

theorem encodeHeader_nil (limit : Nat) (body : Bytes) : encodeHeader limit 0#8 body = .invalidMessageType := by
  simp [encodeHeader]

theorem encodeHeader_long {limit : Nat} {t : Byte} {body : Bytes} (ht : t ≠ 0) (hb : limit < body.length + 19) :
    encodeHeader limit t body = .invalidLength (body.length + 19) := by
  rw [encodeHeader, if_neg ht, if_pos hb]

/-- A well-formed Message has a body that LEN_LIMIT admits, and carries the length written for it (R93, R111). -/
theorem length_of_messageWf {limit : Nat} {m : Message} (hw : Machine.messageWf limit m = true) :
    m.payload.length + 19 ≤ limit ∧ BitVec.ofNat 16 (m.payload.length + 19) = m.length := by
  obtain ⟨hlen, hleg⟩ : m.length.toNat = m.payload.length + 19 ∧ lengthLegal limit m.length = true := by
    simpa [Machine.messageWf] using hw
  rw [← hlen]
  exact ⟨(lengthLegal_iff.1 hleg).2, by simp⟩

/-! ### The pure functions -/

/-- Settles O5: a buffer with a good marker is header bytes and a rest, and those read off the length and the type. -/
theorem decodeHeaderHasThreeOutcomes : Obligations.DecodeHeaderHasThreeOutcomes := by
  refine fun buf => ⟨decodeHeader_short, fun hlen ⟨k, hk, hne⟩ => ?_, fun hlen hall => ?_⟩
  · exact decodeHeader_badMarker hlen fun hm => hne (take_eq_marker.1 hm k hk)
  · obtain ⟨h, rest, rfl⟩ := exists_header_of_goodMarker hlen (take_eq_marker.2 hall)
    obtain ⟨h16, h17, h18⟩ := headerBytes_append_getElem? h rest
    exact ⟨_, _, _, h, h16, h17, h18, decodeHeader_headerBytes h rest, (hi8_mul_add_lo8 _).symm, rfl⟩

/-- Settles O6, an outcome at a time; a total that LEN_LIMIT admits does not wrap in the 16-bit field. -/
theorem encodeHeaderBuildsTheMessage : Obligations.EncodeHeaderBuildsTheMessage := by
  refine fun c t body => ⟨?_, encodeHeader_long, fun ht hb => ?_⟩
  · rintro rfl
    exact encodeHeader_nil _ _
  · refine ⟨hi8 (.ofNat 16 (body.length + 19)), lo8 (.ofNat 16 (body.length + 19)), ?_, ?_⟩
    · rw [hi8_mul_add_lo8, toNat_total hb]
    · rw [encodeHeader_ok ht hb, headerBytes_eq]

/-- Settles O7: what encode_header returns begins with the bytes of the header. -/
theorem headerRoundTrip : Obligations.HeaderRoundTrip := fun _ _ _ ht hb =>
  ⟨_, _, encodeHeader_ok ht hb, decodeHeader_headerBytes _ _, toNat_total hb, rfl⟩

/-- Settles O8: encode passes type and payload alone, and a well-formed Message carries the length they give. -/
theorem encodeRecomputesTheLength : Obligations.EncodeRecomputesTheLength := by
  refine fun c m => ⟨fun _ => rfl, fun ht hw => ?_⟩
  obtain ⟨hfit, hlen⟩ := length_of_messageWf hw
  rw [encodeMessage, encodeHeader_ok ht hfit, hlen]

/-! ### PEEK and ENCODE (R95, R96) -/

namespace Machine

theorem exec_encode (t : Byte) (body : Bytes) (s : State) :
    exec (.encode t body) s =
      .next (s.respond .done (.encoded (encodeAnswer (encodeHeader s.cfg.lenLimit t body)))) := rfl

/-- Settles O25: with no bad marker PEEK latches the header at the front, whatever its length field. -/
theorem peekLatchesTheHeader : Obligations.PeekLatchesTheHeader := by
  refine fun s hf => ⟨fun hd => ?_, fun h hd => ?_, fun hd => ?_⟩
  · have hnone : frontHeader s.rxbuf = none := frontHeader_short (decodeHeader_incomplete.1 hd)
    exact ⟨_, exec_peek_latches hf (by simp [hd]), by simp [hnone]⟩
  · have hsome : frontHeader s.rxbuf = some h := frontHeader_of_header hd
    exact ⟨_, exec_peek_latches hf (by simp [hd]), by simp [hsome]⟩
  · exact ⟨_, exec_peek_badMarker hf hd, by simp [StreamFault.code, StreamFault.header]⟩

/-- Settles O29: ENCODE writes its response alone, whose status is the outcome of encode_header. -/
theorem encodeAnswersAndChangesNothing : Obligations.EncodeAnswersAndChangesNothing := by
  refine fun s t body => ⟨?_, fun ht hb => ?_, fun ht hb => ?_⟩
  · rintro rfl
    exact ⟨_, exec_encode 0 body s, by simp [encodeHeader_nil, encodeAnswer]⟩
  · exact ⟨_, exec_encode t body s, by simp [encodeHeader_long ht hb, encodeAnswer]⟩
  · have hok := encodeHeader_ok ht hb
    exact ⟨_, _, exec_encode t body s, by simp, hok, by simp [hok, encodeAnswer]⟩

end Machine
end Sys2Proof
end

