-- ==== Sys2Proof/Proofs/Framer.lean ====
section
/-! The framer's pure functions (41_framer.md): decode_stub, and read_message outcome by outcome once a header is decoded, what its returns
guarantee, and the round trip with the encoder. -/
namespace Sys2Proof

/-! ### decode_stub (R112) -/

/-- decode_stub gives no Message outside its precondition (U6). -/
theorem decodeStub_mismatch {t : Byte} {frame : Bytes}
    (hne : ¬ ∃ h, decodeHeader frame = .header h ∧ h.type = t ∧ frame.length = h.length.toNat) :
    decodeStub t frame = none := by
  rw [decodeStub]
  cases hd : decodeHeader frame with
  | incomplete => rfl
  | invalidMarker => rfl
  | header h => exact if_neg fun hfit => hne ⟨h, hd, hfit⟩

/-- Settles O9: `decodeStub_frame` within the precondition, `decodeStub_mismatch` outside it. -/
theorem decodeStubWrapsTheFrame : Obligations.DecodeStubWrapsTheFrame := by
  refine fun t frame => ⟨?_, decodeStub_mismatch⟩
  rintro h hd rfl hlen
  exact decodeStub_frame h frame hd hlen

/-! ### read_message behind a decoded header (R110 steps 3 to 6) -/

section
variable {limit : Nat} {reg : RegMap} {buf : Bytes} {h : Header}

theorem readMessage_badLength (hd : decodeHeader buf = .header h) (hl : lengthLegal limit h.length = false) :
    readMessage limit reg buf = .invalidLength h.length := by
  rw [readMessage_of_header hd, if_pos hl]

theorem readMessage_waits (hd : decodeHeader buf = .header h) (hl : lengthLegal limit h.length = true)
    (hb : buf.length < h.length.toNat) : readMessage limit reg buf = .returns none 0 := by
  rw [readMessage_of_header hd, if_neg (by simp [hl]), if_pos hb]

theorem readMessage_skips (hd : decodeHeader buf = .header h) (hl : lengthLegal limit h.length = true)
    (hb : h.length.toNat ≤ buf.length) (hr : registered reg h.type = false) :
    readMessage limit reg buf = .returns none h.length := by
  rw [readMessage_of_header hd, if_neg (by simp [hl]), if_neg (by omega), if_pos hr]

theorem readMessage_delivers (hd : decodeHeader buf = .header h) (hl : lengthLegal limit h.length = true)
    (hb : h.length.toNat ≤ buf.length) (hr : registered reg h.type = true) :
    readMessage limit reg buf = .returns (some ⟨h.type, h.length, (buf.take h.length.toNat).drop 19⟩) h.length := by
  rw [readMessage_of_header hd, if_neg (by simp [hl]), if_neg (by omega), if_neg (by simp [hr])]

/-- The exception InvalidLength has one cause (R110 step 3). -/
theorem readMessage_invalidLength {l : Half} (e : readMessage limit reg buf = .invalidLength l) :
    ∃ h, decodeHeader buf = .header h ∧ h.length = l ∧ lengthLegal limit h.length = false := by
  rcases readMessage_cases limit reg buf with
    ⟨_, hr⟩ | ⟨_, hr⟩ | ⟨h, hd, ⟨hl, hr⟩ | ⟨_, _, hr⟩ | ⟨_, _, _, hr⟩ | ⟨_, _, _, hr⟩⟩ <;> rw [hr] at e <;> cases e
  exact ⟨h, hd, rfl, hl⟩

end

/-- Settles O10, an outcome at a time. -/
theorem readMessageFollowsItsSteps : Obligations.ReadMessageFollowsItsSteps := by
  refine fun c reg buf => ⟨readMessage_short, readMessage_badMarker, fun h hd => ⟨fun hl => ?_, ?_, ?_, ?_⟩⟩
  · exact readMessage_badLength hd (lengthLegal_eq_false.2 hl)
  · exact fun h19 hle hb => readMessage_waits hd (lengthLegal_iff.2 ⟨h19, hle⟩) hb
  · exact fun h19 hle hb hr => readMessage_skips hd (lengthLegal_iff.2 ⟨h19, hle⟩) hb hr
  · exact fun h19 hle hb hr => readMessage_delivers hd (lengthLegal_iff.2 ⟨h19, hle⟩) hb hr

/-- Settles O11: a return that consumes is of legal length, and its Message has the shape of R111. -/
theorem returnedCountsAndMessagesAreLegal : Obligations.ReturnedCountsAndMessagesAreLegal := by
  intro c reg buf m n e
  obtain ⟨rfl, rfl⟩ | ⟨h, _, _, hl, hb, hm⟩ := readMessage_returns e
  · exact ⟨.inl ⟨rfl, rfl⟩, nofun⟩
  · obtain ⟨h19, hle⟩ := lengthLegal_iff.1 hl
    refine ⟨.inr ⟨h19, hle, hb⟩, ?_⟩
    rintro x rfl
    obtain ⟨hlen, hwf, hreg⟩ : x.length = n ∧ Machine.messageWf c.lenLimit x = true ∧ registered reg x.type = true :=
      Machine.shaped_resultOf e
    obtain ⟨_, ⟨⟩⟩ | ⟨_, ⟨⟩⟩ := hm
    exact ⟨hwf, hreg, hlen, rfl⟩

/-- Settles O12, by `readMessage_append`. -/
theorem trailingBytesAreUnread : Obligations.TrailingBytesAreUnread :=
  fun _ _ _ rest _ _ e hn => readMessage_append rest e hn

/-- read_message delivers the wire bytes of a registered type, whatever follows (R124). -/
theorem readMessage_headerBytes {c : Config} {reg : RegMap} {t : Byte} {body : Bytes} (rest : Bytes)
    (hr : registered reg t = true) (hb : body.length + 19 ≤ c.lenLimit) :
    readMessage c.lenLimit reg (headerBytes ⟨BitVec.ofNat 16 (body.length + 19), t⟩ ++ body ++ rest) =
      .returns (some ⟨t, BitVec.ofNat 16 (body.length + 19), body⟩) (BitVec.ofNat 16 (body.length + 19)) := by
  have hn := toNat_total hb
  have hlen : (headerBytes ⟨BitVec.ofNat 16 (body.length + 19), t⟩ ++ body).length = body.length + 19 := by
    rw [List.length_append, headerBytes_length, Nat.add_comm]
  have hd := decodeHeader_headerBytes ⟨BitVec.ofNat 16 (body.length + 19), t⟩ (body ++ rest)
  rw [← List.append_assoc] at hd
  rw [readMessage_delivers hd (lengthLegal_iff.2 (by rw [hn]; omega)) (by rw [hn, List.length_append, hlen]; omega) hr, hn,
    List.take_left' hlen, List.drop_left' (headerBytes_length _)]

/-- Settles O13: encode_header writes the wire bytes that read_message delivers, and encode of a Message reads type and payload alone. -/
theorem framerRoundTrip : Obligations.FramerRoundTrip := fun _ _ _ _ rest ht hr hb =>
  ⟨_, _, encodeHeader_ok ht hb, toNat_total hb, readMessage_headerBytes rest hr hb, encodeHeader_ok ht hb⟩

end Sys2Proof
end

