-- ==== Sys2Proof/Proofs/FramerCommands.lean ====
section
/-! The stream commands on the block (41_framer.md R118 to R120): FRAME with its outcomes and the message rows it executes, APPEND,
ADVANCE. -/
namespace Sys2Proof.Machine

variable {s : State}

/-! ### FRAME and the message rows (R113 to R117, R119) -/

/-- Settles O18: the bytes at the front decode to the row of their header, and that row is the FRAME that finds it. -/
theorem frameStepRunsTheMessageAtTheFront : Obligations.FrameStepRunsTheMessageAtTheFront := by
  intro s w q i hp hw hi
  obtain ⟨h, hd, rfl⟩ := decode_header_eq_ok.1 hi
  rw [step_command hp hw, exec_message_eq_exec_frame (messageHeader_messageRow s.regMap h) (frontHeader_of_header hd)]

theorem exec_frame_badMarker (hs : Framing s) (hr : readMessage s.cfg.lenLimit s.regMap s.rxbuf = .invalidMarker) :
    exec .frame s = .next ((s.enterStreamFault .invalidMarker).respondFrame .faulted) := by
  rw [exec_frame_framing hs, runFramer, hr]

/-- Settles O26, an outcome of read_message at a time. -/
theorem frameLatchesTheOutcome : Obligations.FrameLatchesTheOutcome := by
  refine fun s hs => ⟨fun m n hr => ?_, fun hr => ?_, fun l hr => ?_⟩
  · refine ⟨_, exec_frame_returns hs hr, frontHeader_short, fun _ => frontHeader_of_header, ?_, ?_, ?_, by simp⟩
    · rintro rfl rfl; rfl
    · rintro rfl hn; exact congrArg some (if_neg hn)
    · rintro x rfl; rfl
  · exact ⟨_, exec_frame_badMarker hs hr, by simp [StreamFault.code, StreamFault.header]⟩
  · obtain ⟨h, hd, hlen, hl⟩ := readMessage_invalidLength hr
    exact ⟨_, h, exec_frame_badLength hs (frontHeader_of_header hd) hl, hd, hlen,
      by simp [StreamFault.code, StreamFault.header]⟩

/-- FRAME on a whole message of a registered type delivers it (R110 step 6). -/
theorem exec_frame_delivers {h : Header} (hs : Framing s) (hh : frontHeader s.rxbuf = some h)
    (hl : lengthLegal s.cfg.lenLimit h.length = true) (hb : h.length.toNat ≤ s.rxbuf.length)
    (hr : registered s.regMap h.type = true) :
    exec .frame s = .next ((s.latchFrame (some h)
      (some (.msg ⟨h.type, h.length, (s.rxbuf.take h.length.toNat).drop 19⟩ h.length))).respondFrame .done) := by
  rw [exec_frame_returns hs (readMessage_delivers (frontHeader_eq_some.1 hh) hl hb hr), hh, resultOf]

/-- FRAME on a message whose body is incomplete waits, registered or not (R110 step 4). -/
theorem exec_frame_waits {h : Header} (hs : Framing s) (hh : frontHeader s.rxbuf = some h)
    (hl : lengthLegal s.cfg.lenLimit h.length = true) (hb : s.rxbuf.length < h.length.toNat) :
    exec .frame s = .next ((s.latchFrame (some h) (some .needMore)).respondFrame .done) := by
  rw [exec_frame_returns hs (readMessage_waits (frontHeader_eq_some.1 hh) hl hb), hh, resultOf, if_pos rfl]

/-- A named row carries its type byte, which gives its tag (R111, R113 to R116). -/
theorem named_row {i : Instr} {h : Header} {tag : Tag}
    (hi : (i, h, tag) ∈ [(.openMsg h.length, ⟨h.length, 1⟩, .openTag), (.updateMsg h.length, ⟨h.length, 2⟩, .updateTag),
      (.notificationMsg h.length, ⟨h.length, 3⟩, .notificationTag), (.keepaliveMsg h.length, ⟨h.length, 4⟩, .keepAliveTag)]) :
    messageHeader i = some h ∧ ∀ (l : Half) (payload : Bytes), tagOf ⟨h.type, l, payload⟩ = tag := by
  obtain ⟨length, t⟩ := h
  simp only [List.mem_cons, Prod.mk.injEq, Header.mk.injEq, true_and, List.not_mem_nil, or_false] at hi
  obtain ⟨rfl, rfl, rfl⟩ | ⟨rfl, rfl, rfl⟩ | ⟨rfl, rfl, rfl⟩ | ⟨rfl, rfl, rfl⟩ := hi <;> exact ⟨rfl, fun _ _ => rfl⟩

/-- A type outside 0..4 has no tag of its own (R111). -/
theorem tagOf_unknown {m : Message} (h5 : 5 ≤ m.type.toNat) : tagOf m = .unknownTag := by
  have unnamed (k : Byte) (hk : k.toNat < 5) : m.type ≠ k := by rintro rfl; omega
  simp [tagOf, unnamed]

/-- Settles O30: the row is a FRAME, FRAME delivers a registered type, and the type byte of the row gives the tag. -/
theorem namedMessagesAreDelivered : Obligations.NamedMessagesAreDelivered := by
  intro s i h tag hi hs hh hl hb hr
  obtain ⟨hm, htag⟩ := named_row hi
  exact ⟨_, _, (exec_message_eq_exec_frame hm hh).trans (exec_frame_delivers hs hh hl hb hr), rfl, htag _ _, by simp⟩

/-- Settles O31, as O30 with the tag Unknown. -/
theorem otherRegisteredTypesAreDelivered : Obligations.OtherRegisteredTypesAreDelivered := by
  intro s t length hs hh hl hb hr h5
  exact ⟨_, _, (exec_message_eq_exec_frame rfl hh).trans (exec_frame_delivers hs hh hl hb hr), rfl, tagOf_unknown h5, by simp⟩

/-- Settles O33: the row is a FRAME, and FRAME looks at the body before the registry (R167). -/
theorem incompleteMessagesWait : Obligations.IncompleteMessagesWait := by
  rintro s i h ⟨hm, hs, hh⟩ hl hb
  exact ⟨_, (exec_message_eq_exec_frame hm hh).trans (exec_frame_waits hs hh hl hb), by simp⟩

/-- Settles O35: past the tests of FRAME a message row compares its header with the front of RXBUF. -/
theorem mismatchedMessagesHaveNoMeaning : Obligations.MismatchedMessagesHaveNoMeaning := by
  rintro s i h hm ⟨hf, hp⟩ hh
  rw [exec_message hm, runMessage, if_neg (not_not.2 hf), if_neg (by simp [hp]), if_pos hh]

/-! ### APPEND (R118) -/

/-- Settles O23, by the rules of MemWrite. -/
theorem appendStoresAtTheTail : Obligations.AppendStoresAtTheTail := by
  intro s data hf hc
  refine ⟨_, exec_append_fits hf hc, rfl, fun a ha => readByte_memWrite_old ha, fun k => readByte_memWrite_new _ _ k, ?_⟩
  simp

/-- Settles O24: appending is associative, and the second APPEND fits where the first leaves room. -/
theorem appendChunkingIsFree : Obligations.AppendChunkingIsFree := by
  intro s a b hf hc
  have ha : s.rxbuf.length + a.length ≤ s.cfg.bufCap := by rw [List.length_append] at hc; omega
  have hb : ((s.appendBytes a).respond .done .empty).rxbuf.length + b.length ≤ s.cfg.bufCap := by
    simpa [Nat.add_assoc] using hc
  exact ⟨_, _, _, exec_append_fits hf ha, exec_append_fits hf hb, exec_append_fits hf hc, by simp⟩

/-! ### ADVANCE (R120) -/

/-- Within the buffer the slice ADVANCE keeps is defined: it is the rest behind the count. -/
theorem exec_advance_consumes {r : Result} (hf : s.fault = .noFault) (hr : s.res = some r)
    (hn : (consumed r).toNat ≤ s.rxbuf.length) :
    exec .advance s = .next ((s.consume (s.rxbuf.drop (consumed r).toNat) (consumed r).toNat).respond .done .empty) := by
  rw [exec_advance_latched hf hr, slice_to_end hn, Option.elim_some]

/-- Settles O27, by `exec_advance_consumes`. -/
theorem advanceConsumesTheCount : Obligations.AdvanceConsumesTheCount :=
  fun s _ hf hr hn => ⟨_, exec_advance_consumes hf hr hn, rfl, readByte_drop s.rxbuf _, by simp⟩

end Sys2Proof.Machine
end

