-- ==== Sys2Proof/Proofs/StreamLaw.lean ====
section
/-! The stream law (41_framer.md R123; 70_reset_and_hazards.md R199): the wire bytes of messages determine the messages, a latched SKIP or
MSG stands for the whole message at the front of RXBUF, and so each step, and each run, moves the stream by whole messages. -/
namespace Sys2Proof

/-! ### Wire bytes determine the messages (R70, R75) -/

/-- Wire bytes say where a message ends, so what stands behind it is determined too. -/
theorem wireBytes_append_inj {m m' : Byte × Bytes} {xs ys : Bytes} (hm : m.2.length + 19 ≤ 65535)
    (hm' : m'.2.length + 19 ≤ 65535) (e : Machine.wireBytes m ++ xs = Machine.wireBytes m' ++ ys) : m = m' ∧ xs = ys := by
  obtain ⟨t, body⟩ := m
  obtain ⟨t', body'⟩ := m'
  simp only [Machine.wireBytes, List.append_assoc] at e hm hm'
  have hd := congrArg decodeHeader e
  rw [decodeHeader_headerBytes, decodeHeader_headerBytes] at hd
  injection hd with hd
  injection hd with hlen ht
  have hbody : body.length = body'.length := by
    have := congrArg BitVec.toNat hlen
    simp only [headerLen, BitVec.toNat_ofNat] at this
    omega
  rw [hlen, ht] at e
  obtain ⟨rfl, rfl⟩ := List.append_inj (List.append_cancel_left e) hbody
  exact ⟨by rw [ht], rfl⟩

theorem wireBytes_append_ne_nil (m : Byte × Bytes) (xs : Bytes) : Machine.wireBytes m ++ xs ≠ [] :=
  List.ne_nil_of_length_pos (by rw [List.length_append, wireBytes_length]; omega)

/-- A stream of messages that fit the length field can be read in one way only. -/
theorem wireStream_injective {ms ms' : List (Byte × Bytes)} (h : ∀ m ∈ ms, m.2.length + 19 ≤ 65535)
    (h' : ∀ m ∈ ms', m.2.length + 19 ≤ 65535) (e : Machine.wireStream ms = Machine.wireStream ms') : ms = ms' := by
  induction ms generalizing ms' with
  | nil =>
    cases ms' with
    | nil => rfl
    | cons m' ms' => exact absurd e.symm (wireBytes_append_ne_nil m' _)
  | cons m ms ih =>
    cases ms' with
    | nil => exact absurd e (wireBytes_append_ne_nil m _)
    | cons m' ms' =>
      obtain ⟨hm, hms⟩ := List.forall_mem_cons.1 h
      obtain ⟨hm', hms'⟩ := List.forall_mem_cons.1 h'
      obtain ⟨rfl, hrest⟩ := wireBytes_append_inj hm hm' e
      rw [ih hms hms' hrest]

/-- A whole message at the front of a buffer: its bytes are the wire bytes of its type and body, and the body has its length (R70, R74). -/
theorem take_eq_wireBytes {buf : Bytes} {h : Header} (hd : decodeHeader buf = .header h) (h19 : 19 ≤ h.length.toNat)
    (hb : h.length.toNat ≤ buf.length) :
    ∃ body, (buf.take h.length.toNat).drop 19 = body ∧ body.length + 19 = h.length.toNat ∧
      buf.take h.length.toNat = Machine.wireBytes (h.type, body) := by
  obtain ⟨rest, rfl⟩ := decodeHeader_eq_header.1 hd
  have hlen : (((headerBytes h ++ rest).take h.length.toNat).drop 19).length + 19 = h.length.toNat := by
    rw [List.length_drop, List.length_take_of_le hb]; omega
  refine ⟨_, rfl, hlen, ?_⟩
  have hofNat : BitVec.ofNat 16 h.length.toNat = h.length := by simp
  have hfront : ((headerBytes h ++ rest).take h.length.toNat).take 19 = headerBytes h := by
    rw [List.take_take, min_eq_left h19, List.take_left' (headerBytes_length h)]
  rw [Machine.wireBytes, hlen, hofNat]
  exact (hfront ▸ List.take_append_drop 19 _).symm

/-- A return that consumes something is the Result of the message whose wire bytes stand at the front (R110, R113 to R117, R77). -/
theorem readMessage_returns_wireBytes {limit : Nat} {reg : RegMap} {buf : Bytes} {m : Option Message} {n : Half}
    (e : readMessage limit reg buf = .returns m n) (hn : n ≠ 0#16) :
    ∃ x : Byte × Bytes, buf = Machine.wireBytes x ++ buf.drop n.toNat ∧ n.toNat = x.2.length + 19 ∧
      x.2.length + 19 ≤ limit ∧ Machine.resultFor reg x = Machine.resultOf m n := by
  obtain ⟨_, h0⟩ | ⟨h, hd, rfl, hl, hb, hm⟩ := readMessage_returns e
  · exact absurd h0 hn
  obtain ⟨h19, hle⟩ := lengthLegal_iff.1 hl
  obtain ⟨body, hbody, hlen, hwire⟩ := take_eq_wireBytes hd h19 hb
  have hofNat : BitVec.ofNat 16 (body.length + 19) = h.length := by simp [hlen]
  refine ⟨(h.type, body), by rw [← hwire, List.take_append_drop], hlen.symm, hlen.trans_le hle, ?_⟩
  obtain ⟨hr, rfl⟩ | ⟨hr, rfl⟩ := hm
  · simp [Machine.resultFor, Machine.resultOf, hofNat, hr, hn]
  · simp [Machine.resultFor, Machine.resultOf, hofNat, hr, hbody]

namespace Machine

variable {s t u : State}

/-- A latched SKIP or MSG is the Result of the message whose wire bytes stand at the front of RXBUF (R63 (a), R120). -/
theorem State.Inv.latched_wireBytes (hs : s.Inv) {r : Result} (hr : s.res = some r) (hne : r ≠ .needMore) :
    ∃ x : Byte × Bytes, s.rxbuf = wireBytes x ++ s.rxbuf.drop (consumed r).toNat ∧ (consumed r).toNat = x.2.length + 19 ∧
      x.2.length + 19 ≤ s.cfg.lenLimit ∧ resultFor s.regMap x = r := by
  have hshape := hs.resShape r hr
  obtain ⟨x, hx, hn, hle, hres⟩ := readMessage_returns_wireBytes (hs.resCurrent r hr hne) (consumed_ne_zero hshape hne)
  exact ⟨x, hx, hn, hle, hres.trans (resultOf_of_shaped hshape)⟩

/-! ### Bytes in, Results out -/

/-- Between `s` and `t` the bytes `brought` came in and the Results `out` went out as the stream law says: the Results are those of whole
messages of legal length, which are what left the front of the stream, and POS moved by their bytes (R123). -/
def MovesStream (s : State) (brought : Bytes) (out : List Result) (t : State) : Prop :=
  ∃ ms : List (Byte × Bytes), s.rxbuf ++ brought = wireStream ms ++ t.rxbuf ∧
    (∀ m ∈ ms, m.2.length + 19 ≤ s.cfg.lenLimit) ∧ out = ms.map (resultFor s.regMap) ∧
    t.pos = (s.pos + (wireStream ms).length) % 2 ^ s.cfg.wPos

theorem wireStream_append (ms ms' : List (Byte × Bytes)) : wireStream (ms ++ ms') = wireStream ms ++ wireStream ms' := by
  induction ms with
  | nil => rfl
  | cons m ms ih => simp only [List.cons_append, wireStream, ih, List.append_assoc]

/-- No message is consumed where the bytes brought are added to the buffer and POS stands. -/
theorem MovesStream.of_appended {data : Bytes} (hpos : s.pos < 2 ^ s.cfg.wPos) (hb : t.rxbuf = s.rxbuf ++ data)
    (hp : t.pos = s.pos) : MovesStream s data [] t :=
  ⟨[], hb.symm, by simp, rfl, hp.trans (Nat.mod_eq_of_lt hpos).symm⟩

theorem MovesStream.of_keepsStream (hpos : s.pos < 2 ^ s.cfg.wPos) (hk : KeepsStream s t) : MovesStream s [] [] t :=
  .of_appended hpos (by rw [hk.1, List.append_nil]) hk.2

/-- The stream law composes, where the registry and the configuration stand. -/
theorem MovesStream.trans {a b : Bytes} {x y : List Result} (hsu : MovesStream s a x u) (hut : MovesStream u b y t)
    (hreg : u.regMap = s.regMap) (hcfg : u.cfg = s.cfg) : MovesStream s (a ++ b) (x ++ y) t := by
  obtain ⟨ms, hms, hle, rfl, hpos⟩ := hsu
  obtain ⟨ms', hms', hle', rfl, hpos'⟩ := hut
  rw [hcfg] at hle' hpos'
  refine ⟨ms ++ ms', ?_, List.forall_mem_append.2 ⟨hle, hle'⟩, ?_, ?_⟩
  · rw [← List.append_assoc, hms, List.append_assoc, hms', wireStream_append, List.append_assoc]
  · rw [hreg, List.map_append]
  · rw [hpos', hpos, Nat.mod_add_mod, wireStream_append, List.length_append, Nat.add_assoc]

/-! ### One step -/

theorem commandNext_iff {i : Instr} : CommandNext s i ↔ fetch s = .command i := by
  unfold fetch
  constructor
  · rintro ⟨w, q, hq, hd⟩
    simp [hq, hd]
  · intro h
    split at h
    · cases h
    · cases h
    · split at h
      · cases h; exact ⟨_, _, ‹_›, ‹_›⟩
      · cases h

theorem step_of_fetch {i : Instr} (h : fetch s = .command i) : step s = exec i s := by
  rw [step, h]

theorem acceptedNext_eq_nil (h : ∀ data, fetch s ≠ .command (.append data)) : acceptedNext s = [] := by
  unfold acceptedNext
  split
  · exact absurd ‹_› (h _)
  · rfl

theorem deliveredNext_eq_nil (h : fetch s ≠ .command .advance) : deliveredNext s = [] := by
  unfold deliveredNext
  split
  · exact absurd ‹_› h
  · exact absurd ‹_› h
  · rfl

/-- APPEND takes its bytes in whole or not at all (R118). -/
theorem step_append_movesStream (hs : s.Inv) {data : Bytes} (hc : fetch s = .command (.append data)) (e : step s = .next t) :
    MovesStream s (acceptedNext s) (deliveredNext s) t := by
  rw [step_of_fetch hc] at e
  rw [deliveredNext_eq_nil (by simp [hc]), acceptedNext, hc]
  by_cases hfit : s.fault = .noFault ∧ s.rxbuf.length + data.length ≤ s.cfg.bufCap
  · rw [exec_append_fits hfit.1 hfit.2] at e
    cases e
    simp only [if_pos hfit]
    exact .of_appended hs.posBound rfl rfl
  · obtain ⟨r, _, he⟩ := exec_append_refused hfit
    rw [he] at e
    cases e
    simp only [if_neg hfit]
    exact .of_keepsStream hs.posBound ⟨rfl, rfl⟩

/-- What ADVANCE delivers: the latched Result, unless it is NEED_MORE (R120, R121). -/
theorem deliveredNext_advance {r : Result} (hc : fetch s = .command .advance) (hf : s.fault = .noFault)
    (hr : s.res = some r) : deliveredNext s = if r = .needMore then [] else [r] := by
  cases r <;> simp [deliveredNext, hc, hf, hr]

theorem deliveredNext_of_res_none (hr : s.res = none) : deliveredNext s = [] := by
  simp [deliveredNext, hr]

/-- ADVANCE drops the message the latched Result stands for, and nothing on NEED_MORE (R120). -/
theorem step_advance_movesStream (hs : s.Inv) (hc : fetch s = .command .advance) (e : step s = .next t) :
    MovesStream s (acceptedNext s) (deliveredNext s) t := by
  rw [step_of_fetch hc] at e
  rw [acceptedNext_eq_nil (by simp [hc])]
  cases hr : s.res with
  | none =>
    rw [deliveredNext_of_res_none hr]
    have hk : KeepsStream s t := by
      obtain ⟨u, _, _, he, rfl, _⟩ := exec_next e
      cases he with
      | same => exact ⟨rfl, rfl⟩
      | framed hi | badMarker hi | badLength hi => simp [RunsFramer, messageHeader] at hi
      | consumedBy r _ hr' => rw [hr] at hr'; cases hr'
    exact .of_keepsStream hs.posBound hk
  | some r =>
    have hf := (hs.framing_of_res (by simp [hr])).1
    rw [exec_advance_consumes hf hr (hs.resFits r hr)] at e
    cases e
    rw [deliveredNext_advance hc hf hr]
    by_cases hne : r = .needMore
    · subst hne
      exact .of_keepsStream hs.posBound ⟨rfl, Nat.mod_eq_of_lt hs.posBound⟩
    · obtain ⟨x, hx, hn, hle, hres⟩ := hs.latched_wireBytes hr hne
      refine ⟨[x], ?_, by simpa using hle, by simp [hne, hres], ?_⟩
      · simpa [wireStream] using hx
      · simp [wireStream, wireBytes_length, hn]

/-- The stream law of a step: only APPEND and ADVANCE move the stream, and every other step but reset keeps it (R57, R59). -/
theorem step_movesStream (hs : s.Inv) (hn : NotResetNext s) (e : step s = .next t) :
    MovesStream s (acceptedNext s) (deliveredNext s) t := by
  by_cases hadv : fetch s = .command .advance
  · exact step_advance_movesStream hs hadv e
  by_cases happ : ∃ data, fetch s = .command (.append data)
  · obtain ⟨data, hc⟩ := happ
    exact step_append_movesStream hs hc e
  obtain ⟨brought, dropped, hb, hp, hbrought, hdropped⟩ := streamBytesAreConserved s t e hn hs.posBound
  have hb0 : brought = [] := by_contra fun h => happ ⟨_, commandNext_iff.1 (hbrought h)⟩
  have hd0 : dropped = [] := by_contra fun h => hadv (commandNext_iff.1 (hdropped h))
  subst hb0 hd0
  rw [acceptedNext_eq_nil (not_exists.1 happ), deliveredNext_eq_nil hadv]
  refine .of_keepsStream hs.posBound ⟨?_, hp.trans (Nat.mod_eq_of_lt hs.posBound)⟩
  simpa using hb.symm

/-! ### Runs -/

/-- A run that answers takes a first step that answers, and its account is that of the step and of the run behind it. -/
theorem runSteps_succ {k : Nat} (e : runSteps (k + 1) s = .next t) :
    ∃ u, step s = .next u ∧ runSteps k u = .next t ∧ accepted (k + 1) s = acceptedNext s ++ accepted k u ∧
      delivered (k + 1) s = deliveredNext s ++ delivered k u := by
  simp only [runSteps, accepted, delivered] at e ⊢
  cases hs : step s with
  | next u => rw [hs] at e; exact ⟨u, rfl, e, rfl, rfl⟩
  | fault r => rw [hs] at e; cases e
  | refused r => rw [hs] at e; cases e

/-- A run without reset keeps reset away from its first step and from the run behind it (R60). -/
theorem notResetNext_of_take {k : Nat} (h : HostInput.reset ∉ s.port.take (k + 1)) :
    NotResetNext s ∧ HostInput.reset ∉ s.port.tail.take k := by
  cases hp : s.port with
  | nil => simp [hp]
  | cons x q =>
    rw [hp, List.take_succ_cons, List.mem_cons, not_or] at h
    exact ⟨fun q' e => h.1 (by rw [hp] at e; cases e; rfl), h.2⟩

/-- The stream law of a run, by induction on its steps. -/
theorem run_movesStream {k : Nat} (hs : s.Inv) (hp : s.phase = .run) (hn : HostInput.reset ∉ s.port.take k)
    (e : runSteps k s = .next t) : MovesStream s (accepted k s) (delivered k s) t := by
  induction k generalizing s with
  | zero =>
    cases e
    exact .of_keepsStream hs.posBound ⟨rfl, rfl⟩
  | succ k ih =>
    obtain ⟨u, hstep, hrun, ha, hd⟩ := runSteps_succ e
    obtain ⟨hnext, hrest⟩ := notResetNext_of_take hn
    obtain ⟨hpu, hregu⟩ := (registryIsFixedInRun s u hstep hnext).1 hp
    rw [← eachStepTakesOneInput s u hstep] at hrest
    rw [ha, hd]
    exact (step_movesStream hs hnext hstep).trans (ih (everyStepKeepsTheInvariant s u hs hstep) hpu hrest hrun) hregu
      (configurationNeverChanges s u hstep)

/-- Settles O51: the stream law of a run; a clean end has nothing buffered. -/
theorem consumedResultsAreTheStreamsMessages : Obligations.ConsumedResultsAreTheStreamsMessages := by
  intro k s t hs hp hn e
  obtain ⟨ms, hms, hle, hd, hpos⟩ := run_movesStream hs hp hn e
  refine ⟨ms, hms, hle, hd, hpos, fun hclean => ?_⟩
  have hempty : t.rxbuf = [] := by
    simp only [State.clean, Bool.and_eq_true, List.isEmpty_iff] at hclean
    exact hclean.1.2
  rw [hms, hempty, List.append_nil]

/-- Settles O52: by the stream law both runs consume messages whose wire bytes are the bytes accepted, and those determine the messages. -/
theorem resultsDoNotDependOnTheChunking : Obligations.ResultsDoNotDependOnTheChunking := by
  intro k l s s' t t' hs hs' hp hp' hreg hcfg hb hb' hn hn' e e' ht ht' hacc
  obtain ⟨ms, hms, hle, hd, _⟩ := run_movesStream hs hp hn e
  obtain ⟨ms', hms', hle', hd', _⟩ := run_movesStream hs' hp' hn' e'
  have hwire : wireStream ms = wireStream ms' := by
    rw [hb, ht, List.append_nil, List.nil_append] at hms
    rw [hb', ht', List.append_nil, List.nil_append] at hms'
    rw [← hms, hacc, hms']
  have heq : ms = ms' := wireStream_injective (fun m hm => (hle m hm).trans (lenLimit_le _))
    (fun m hm => (hle' m hm).trans (lenLimit_le _)) hwire
  rw [hd, hd', heq, hreg]

end Machine
end Sys2Proof
end

