-- ==== Sys2Proof/Proofs/Registry.lean ====
section
/-! The registry system (42_registry_system.md): lookup as a value, reset and the reserved codes as steps, REGISTER_TYPE and SEAL where they
have their effect. -/
namespace Sys2Proof

/-! ### Lookup (R144) -/

/-- The recommended REG_RESET {1, 2, 3, 4} is four ones above bit 0 (R7). -/
theorem recommended_regReset_getLsbD (n : Nat) : Config.recommended.regReset.getLsbD n = true ↔ 1 ≤ n ∧ n < 5 := by
  have hones : Config.recommended.regReset = BitVec.ofNat 256 ((2 ^ 4 - 1) <<< 1) := rfl
  rw [hones, BitVec.getLsbD_ofNat, Nat.testBit_shiftLeft, Nat.testBit_two_pow_sub_one]
  simp only [Bool.and_eq_true, decide_eq_true_eq]
  omega

theorem registered_recommended (t : Byte) :
    registered (resetRegistry Config.recommended) t = true ↔ t = 1 ∨ t = 2 ∨ t = 3 ∨ t = 4 := by
  by_cases ht : t = 0#8
  · subst ht; simp
  · rw [registered_resetRegistry _ ht, recommended_regReset_getLsbD]
    bv_omega

/-- Settles O14: type 0 is answered before the bits are read, and the recommended REG_RESET holds 1 to 4. -/
theorem registryLookup : Obligations.RegistryLookup :=
  ⟨registered_nil, fun _ _ => registered_of_ne, registered_recommended⟩

namespace Machine

variable {s : State}

/-! ### Reset and the reserved codes (R142, R143) -/

/-- Settles O16: the step is `State.resetInput`, whatever the state. -/
theorem resetInputIsAlwaysTaken : Obligations.ResetInputIsAlwaysTaken := by
  intro s q hp
  refine ⟨_, step_reset hp, rfl, rfl, rfl, rfl, rfl, fun b hb => ?_, resetRegistry_bit0 s.cfg, rfl, rfl, rfl, ?_⟩
  · exact registered_resetRegistry s.cfg hb
  · rw [State.resetInput_port, hp, List.tail_cons]

/-- Settles O19: a reserved code decodes to no command, and the step then only responds. -/
theorem reservedCodesAreRefused : Obligations.ReservedCodesAreRefused := by
  intro s w q hp hw
  exact ⟨_, step_reserved hp (decodeCommand_reserved hw), by simp [refuseReserved], rfl, rfl⟩

/-! ### REGISTER_TYPE and SEAL in phase INIT (R140, R141) -/

theorem exec_registerType_init {t : Byte} (hf : s.fault = .noFault) (hp : s.phase = .init) (ht : t ≠ 0) :
    exec (.registerType t) s = .next ((s.register t).respond .done .empty) := by
  change execRegisterType t s = _
  rw [execRegisterType, if_neg (not_not.2 hf), if_neg (by simp [hp]), if_neg ht]

theorem exec_sealRegistry_init (hf : s.fault = .noFault) (hp : s.phase = .init) :
    exec .sealRegistry s = .next (s.closeRegistry.respond .done .empty) := by
  change execSeal s = _
  rw [execSeal, if_neg (not_not.2 hf), if_neg (by simp [hp])]

/-- Settles O21: the one write is `addType`. -/
theorem registerTypeAddsOneType : Obligations.RegisterTypeAddsOneType := by
  intro s t hf hp ht
  refine ⟨_, exec_registerType_init hf hp ht, fun b => registered_addType s.regMap b ht, ?_⟩
  simp

/-- Settles O22: the one write is PHASE. -/
theorem sealClosesTheRegistry : Obligations.SealClosesTheRegistry := by
  intro s hf hp
  refine ⟨_, exec_sealRegistry_init hf hp, ?_⟩
  simp

end Machine
end Sys2Proof
end

