-- ==== Sys2Proof/Proofs/Exceptions.lean ====
section
/-! The exceptions (60_exceptions.md): an answer that changes nothing, the refused commands (R173), the faulted state (R169), the entry
into a stream fault (R166, R168). -/
namespace Sys2Proof.Machine

variable {s : State}

/-! ### Refusals (R173) -/

/-- Where an instruction or a step only responds, no piece of state changes. -/
theorem answers_unchanged {o : StepOutcome} {r : Rsp} {p : Payload} (e : o = .next (s.respond r p)) :
    ∃ u, o = .next u ∧ KeepsAll s u ∧ Answered s u r p :=
  ⟨_, e, by simp⟩

theorem exec_registerType_refused {t : Byte} (hf : s.fault = .noFault) (h : s.phase = .run ∨ t = 0) :
    exec (.registerType t) s = .next (s.respond .refused .empty) := by
  change execRegisterType t s = _
  rw [execRegisterType, if_neg (not_not.2 hf)]
  obtain hp | ht := h
  · rw [if_pos hp]
  · rw [if_pos ht, ite_self]

theorem exec_sealRegistry_refused (hf : s.fault = .noFault) (hp : s.phase = .run) :
    exec .sealRegistry s = .next (s.respond .refused .empty) := by
  change execSeal s = _
  rw [execSeal, if_neg (not_not.2 hf), if_pos hp]

theorem exec_append_overflows {data : Bytes} (hf : s.fault = .noFault) (hc : s.cfg.bufCap < s.rxbuf.length + data.length) :
    exec (.append data) s = .next (s.respond .refused .empty) := by
  change execAppend data s = _
  rw [execAppend, if_neg (not_not.2 hf), if_pos hc]

/-- In phase INIT a message row is refused before its header is compared with RXBUF, as the FRAME that executes it is (R119; log
entry 9). -/
theorem exec_runsFramer_init {i : Instr} (hi : RunsFramer i) (hf : s.fault = .noFault) (hp : s.phase = .init) :
    exec i s = .next (s.respondFrame .refused) := by
  obtain rfl | hm := hi
  · exact exec_frame_init hf hp
  · obtain ⟨h, hm⟩ := Option.ne_none_iff_exists'.1 hm
    rw [exec_message hm, runMessage, if_neg (not_not.2 hf), if_pos hp]

/-- Settles O36: each refused case only responds. -/
theorem refusalsLeaveTheStateUnchanged : Obligations.RefusalsLeaveTheStateUnchanged := fun s hf =>
  ⟨fun _ h => answers_unchanged (exec_registerType_refused hf h),
    fun hp => answers_unchanged (exec_sealRegistry_refused hf hp),
    fun _ hp hi => answers_unchanged (exec_runsFramer_init hi hf hp),
    fun hr => answers_unchanged (exec_advance_unlatched hf hr),
    fun _ hc => answers_unchanged (exec_append_overflows hf hc),
    reservedCodesAreRefused s⟩

/-! ### The faulted state (R169) -/

/-- Every instruction except ENCODE tests FAULT before anything else. -/
theorem exec_faulted {i : Instr} (hf : s.fault ≠ .noFault) (hi : ∀ t body, i ≠ .encode t body) :
    ∃ p, exec i s = .next (s.respond .faulted p) := by
  cases i with
  | encode t body => exact absurd rfl (hi t body)
  | openMsg | updateMsg | notificationMsg | keepaliveMsg | unrecognized | registeredOther
  | registerType | sealRegistry | append | peek | frame | advance => exact ⟨_, if_pos hf⟩

/-- A faulted state is neither clean nor pending (R199). -/
theorem not_final_of_faulted (hf : s.fault ≠ .noFault) : s.clean = false ∧ s.pending = false := by
  simp [State.clean, State.pending, hf]

/-- Settles O37: the test for a fault comes first, ENCODE reads the configuration alone, and the port takes reset and the reserved codes
in every state. -/
theorem faultedStateAnswersFaulted : Obligations.FaultedStateAnswersFaulted := by
  refine fun s hf => ⟨fun i hi => ?_, fun t body => ?_, reservedCodesAreRefused s, fun q hp => ?_, not_final_of_faulted hf⟩
  · obtain ⟨p, e⟩ := exec_faulted hf hi
    obtain ⟨u, hu⟩ := answers_unchanged e
    exact ⟨u, p, hu⟩
  · exact ⟨_, _, exec_encode t body s, by simp, exec_encode t body _, rfl⟩
  · exact ⟨_, step_reset hp, rfl, rfl⟩

/-! ### Entering a stream fault (R166, R168) -/

/-- Of the nine effects two latch a fault: a bad marker, and a header whose length is out of range. -/
theorem Effect.streamFault_cases {i : Instr} {u : State} (e : Effect i s u) (hf : s.fault = .noFault) (hu : u.fault ≠ .noFault) :
    (u = s.enterStreamFault .invalidMarker ∧ decodeHeader s.rxbuf = .invalidMarker) ∨
    ∃ h, u = s.enterStreamFault (.invalidLength (some h)) ∧ decodeHeader s.rxbuf = .header h ∧
      lengthLegal s.cfg.lenLimit h.length = false := by
  cases e with
  | same | peeked | framed | appended | consumedBy | typeAdded | sealed => exact absurd hf hu
  | badMarker _ _ hm => exact .inl ⟨rfl, hm⟩
  | badLength _ h _ _ hh hl => exact .inr ⟨h, rfl, frontHeader_eq_some.1 hh, hl⟩

/-- Settles O38: whatever the instruction, it latches a fault by one of the two entries, and then answers FAULTED. -/
theorem streamFaultEntry : Obligations.StreamFaultEntry := by
  intro i s t e hf ht
  obtain ⟨u, r, p, he, rfl, hr⟩ := exec_next e
  obtain rfl := hr hf ht
  obtain ⟨rfl, hm⟩ | ⟨h, rfl, hd, hl⟩ := he.streamFault_cases hf ht
  · exact ⟨rfl, rfl, rfl, ⟨rfl, rfl⟩, ⟨rfl, rfl⟩, ⟨p, rfl, rfl⟩, fun _ => ⟨rfl, hm⟩, nofun⟩
  · exact ⟨rfl, rfl, rfl, ⟨rfl, rfl⟩, ⟨rfl, rfl⟩, ⟨p, rfl, rfl⟩, nofun, fun _ => ⟨h, rfl, hd, lengthLegal_eq_false.1 hl⟩⟩

end Sys2Proof.Machine
end

