-- ==== Sys2Proof/Proofs/Hazards.lean ====
section
/-! Waiting and progress (70_reset_and_hazards.md R195, R200): FRAME waits exactly where the bytes at the front are an incomplete message,
which never fills the buffer, and repeated STEPs take the messages of a stream off the front one by one. -/
namespace Sys2Proof

/-! ### When read_message waits (R110 steps 1 and 4) -/

/-- read_message answers `(None, 0)` for an incomplete message and for nothing else: a SKIP counts a legal length, so not 0. -/
theorem readMessage_eq_wait_iff {limit : Nat} {reg : RegMap} {buf : Bytes} :
    readMessage limit reg buf = .returns none 0 ↔ Machine.awaitsMore limit buf := by
  constructor
  · intro e
    rcases readMessage_cases limit reg buf with
      ⟨hs, _⟩ | ⟨_, hr⟩ | ⟨h, hd, ⟨_, hr⟩ | ⟨hl, hb, _⟩ | ⟨hl, _, _, hr⟩ | ⟨_, _, _, hr⟩⟩
    · exact .inl hs
    · rw [hr] at e; cases e
    · rw [hr] at e; cases e
    · exact .inr ⟨h, hd, hl, hb⟩
    · rw [hr] at e
      injection e with _ hn
      exact absurd hn (ne_zero_of_lengthLegal hl)
    · rw [hr] at e; cases e
  · rintro (hs | ⟨h, hd, hl, hb⟩)
    · exact readMessage_short hs
    · exact readMessage_waits hd hl hb

/-- An incomplete message is shorter than the longest message that is accepted (R195). -/
theorem length_lt_of_awaitsMore {c : Config} {buf : Bytes} (h : Machine.awaitsMore c.lenLimit buf) :
    buf.length < c.lenLimit := by
  obtain hs | ⟨h, _, hl, hb⟩ := h
  · have h19 : 19 ≤ c.lenLimit := by rcases lenLimit_cases c with hc | hc <;> omega
    exact hs.trans_le h19
  · exact hb.trans_le (lengthLegal_iff.1 hl).2

/-- Whole wire bytes at the front: read_message returns the Result of their message, whatever follows (R113 to R117, R77). -/
theorem readMessage_wireBytes {c : Config} {m : Byte × Bytes} (reg : RegMap) (rest : Bytes)
    (hm : m.2.length + 19 ≤ c.lenLimit) :
    ∃ x n, readMessage c.lenLimit reg (Machine.wireBytes m ++ rest) = .returns x n ∧
      Machine.resultOf x n = Machine.resultFor reg m := by
  obtain ⟨t, body⟩ := m
  cases hr : registered reg t with
  | true => exact ⟨_, _, readMessage_headerBytes rest hr hm, by simp [Machine.resultOf, Machine.resultFor, hr]⟩
  | false =>
    have hn := toNat_total hm
    have hd : decodeHeader (Machine.wireBytes (t, body) ++ rest) = .header ⟨BitVec.ofNat 16 (body.length + 19), t⟩ := by
      rw [Machine.wireBytes, List.append_assoc, decodeHeader_headerBytes]
    have hl : lengthLegal c.lenLimit (BitVec.ofNat 16 (body.length + 19)) = true :=
      lengthLegal_iff.2 (by rw [hn]; omega)
    have hb : (BitVec.ofNat 16 (body.length + 19)).toNat ≤ (Machine.wireBytes (t, body) ++ rest).length := by
      rw [hn, List.length_append, wireBytes_length]; omega
    have hskip : Machine.resultOf none (BitVec.ofNat 16 (body.length + 19)) = .skip (BitVec.ofNat 16 (body.length + 19)) :=
      if_neg (ne_zero_of_lengthLegal hl)
    exact ⟨_, _, readMessage_skips hd hl hb hr, hskip.trans (by simp [Machine.resultFor, hr])⟩

namespace Machine

variable {s t : State}

/-! ### FRAME never waits on a full buffer (R195) -/

theorem resultOf_eq_needMore_iff {m : Option Message} {n : Half} : resultOf m n = .needMore ↔ m = none ∧ n = 0 := by
  cases m <;> simp [resultOf]

/-- Settles O48: NEED_MORE is latched for an incomplete message alone, and that is shorter than LEN_LIMIT. -/
theorem noDeadlockWhenTheBufferIsFull : Obligations.NoDeadlockWhenTheBufferIsFull := by
  intro s t hcap hs e
  rw [exec_frame_framing hs] at e
  obtain ⟨m, n, hr, h⟩ | ⟨_, h⟩ | ⟨x, _, _, h⟩ := runFramer_cases s <;> rw [h] at e <;> cases e
  · have hroom (hwait : resultOf m n = .needMore) : s.rxbuf.length < s.cfg.bufCap := by
      obtain ⟨rfl, rfl⟩ := resultOf_eq_needMore_iff.1 hwait
      exact (length_lt_of_awaitsMore (readMessage_eq_wait_iff.1 hr)).trans_le hcap
    refine ⟨fun hres => rxReady_iff.2 ⟨hs.1, hroom (Option.some.inj hres)⟩, fun hfull => .inr ?_⟩
    simp only [State.respondFrame_res, State.latchFrame_res]
    cases hres : resultOf m n with
    | needMore => exact absurd hfull (hroom hres).ne
    | skip k => exact .inl ⟨k, rfl⟩
    | msg x k => exact .inr ⟨x, k, rfl⟩
  · exact ⟨nofun, fun _ => .inl (StreamFault.code_ne .invalidMarker)⟩
  · exact ⟨nofun, fun _ => .inl (StreamFault.code_ne (.invalidLength (some x)))⟩

/-! ### Repeated STEPs drain the buffer (R200) -/

/-- A run and the step behind it are a run of one step more (R60). -/
theorem runSteps_succ_of_step {k : Nat} {o : StepOutcome} (hrun : runSteps k s = .next t) (hstep : step t = o) :
    runSteps (k + 1) s = o := by
  rw [runSteps_add k 1 s t hrun, runSteps_one, hstep]

/-- The block frames, the messages `ms` stand at the front of RXBUF before `rest`, and the host is about to issue one STEP for each of
them before the inputs `q`. -/
structure Draining (s : State) (ms : List (Byte × Bytes)) (rest : Bytes) (q : List HostInput) : Prop where
  framing : Framing s
  posBound : s.pos < 2 ^ s.cfg.wPos
  buffered : s.rxbuf = wireStream ms ++ rest
  fits : ∀ m ∈ ms, m.2.length + 19 ≤ s.cfg.lenLimit
  steps : s.port = asmSteps ms.length ++ q

section
variable {m : Byte × Bytes} {ms before : List (Byte × Bytes)} {rest : Bytes} {q : List HostInput}

theorem Draining.buffered_cons (hs : Draining s (m :: ms) rest q) : s.rxbuf = wireBytes m ++ (wireStream ms ++ rest) := by
  rw [hs.buffered, wireStream, List.append_assoc]

theorem Draining.port_cons (hs : Draining s (m :: ms) rest q) :
    s.port = inFrame :: inAdvance :: (asmSteps ms.length ++ q) := by
  rw [hs.steps, List.length_cons, asmSteps_succ]

/-- The FRAME of a STEP latches the Result of the message at the front. -/
theorem Draining.step_latches (hs : Draining s (m :: ms) rest q) :
    ∃ h, step s = .next ((s.latchFrame h (some (resultFor s.regMap m))).respondFrame .done) := by
  obtain ⟨x, n, hread, hres⟩ := readMessage_wireBytes s.regMap (wireStream ms ++ rest) (hs.fits m List.mem_cons_self)
  rw [← hs.buffered_cons] at hread
  exact ⟨_, by rw [step_frame hs.port_cons, exec_frame_returns hs.framing hread, hres]⟩

theorem consumed_resultFor (reg : RegMap) (m : Byte × Bytes) :
    consumed (resultFor reg m) = BitVec.ofNat 16 (m.2.length + 19) := by
  cases hr : registered reg m.1 <;> simp [resultFor, hr, consumed]

/-- One STEP removes exactly the message at the front and leaves the rest untouched (R200). -/
theorem Draining.run_step (hs : Draining s (m :: ms) rest q) :
    ∃ t, runSteps 2 s = .next t ∧ Draining t ms rest q ∧ t.pos = (s.pos + (wireBytes m).length) % 2 ^ s.cfg.wPos ∧
      KeepsRegistry s t ∧ t.cfg = s.cfg := by
  obtain ⟨hm, hms⟩ := List.forall_mem_cons.1 hs.fits
  have hcount : (consumed (resultFor s.regMap m)).toNat = (wireBytes m).length := by
    rw [consumed_resultFor, toNat_total hm, wireBytes_length]
  have hfit : (consumed (resultFor s.regMap m)).toNat ≤ s.rxbuf.length := by
    rw [hcount, hs.buffered_cons, List.length_append]; exact Nat.le_add_right _ _
  obtain ⟨h, hframe⟩ := hs.step_latches
  have hport : ((s.latchFrame h (some (resultFor s.regMap m))).respondFrame .done).port =
      inAdvance :: (asmSteps ms.length ++ q) := by
    simp [hs.port_cons]
  have hadvance := (step_advance hport).trans (exec_advance_consumes hs.framing.1 rfl hfit)
  have hrun := runSteps_succ_of_step ((runSteps_one s).trans hframe) hadvance
  refine ⟨_, hrun, ⟨hs.framing, Nat.mod_lt _ (Nat.two_pow_pos _), ?_, hms, ?_⟩, ?_, ⟨rfl, rfl⟩, rfl⟩
  · simp [hcount, hs.buffered_cons]
  · simp [hs.port_cons]
  · simp [hcount]

/-- As many STEPs as there are messages `before` remove exactly these: POS moves by their bytes, registry and configuration stand. -/
theorem Draining.run_steps (hs : Draining s (before ++ ms) rest q) :
    ∃ t, runSteps (2 * before.length) s = .next t ∧ Draining t ms rest q ∧
      t.pos = (s.pos + (wireStream before).length) % 2 ^ s.cfg.wPos ∧ KeepsRegistry s t ∧ t.cfg = s.cfg := by
  induction before generalizing s with
  | nil => exact ⟨s, rfl, hs, (Nat.mod_eq_of_lt hs.posBound).symm, ⟨rfl, rfl⟩, rfl⟩
  | cons m before ih =>
    obtain ⟨u, hstep, hu, hposu, ⟨hphaseu, hregu⟩, hcfgu⟩ := hs.run_step
    obtain ⟨t, hrun, ht, hpos, ⟨hphase, hreg⟩, hcfg⟩ := ih hu
    refine ⟨t, ?_, ht, ?_, ⟨hphase.trans hphaseu, hreg.trans hregu⟩, hcfg.trans hcfgu⟩
    · rw [List.length_cons, Nat.mul_succ, Nat.add_comm, runSteps_add 2 _ s u hstep, hrun]
    · rw [hpos, hposu, hcfgu, Nat.mod_add_mod, wireStream, List.length_append, Nat.add_assoc]

end

/-- Settles O50: k STEPs reach the k-th message, whose FRAME latches its Result; all STEPs reach `rest`, where FRAME waits. -/
theorem drainDeliversEveryMessageInOrder : Obligations.DrainDeliversEveryMessageInOrder := by
  intro s ms rest q hfr hpos hbuf hfits hport
  have hs : Draining s ms rest (inFrame :: q) := ⟨hfr, hpos, hbuf, hfits, hport⟩
  obtain ⟨t, hrun, ht, hposT, hregT, hcfgT⟩ := Draining.run_steps (ms := []) (by rwa [List.append_nil])
  refine ⟨fun k hk => ?_, ⟨t, hrun, ht.framing.1, ht.buffered, hposT, hregT, hcfgT, ht.steps⟩, fun hwait => ?_⟩
  · have hsplit : ms = ms.take k ++ ms[k] :: ms.drop (k + 1) := by simp
    rw [hsplit] at hs
    obtain ⟨u, hrunU, hu, _, ⟨_, hregU⟩, _⟩ := hs.run_steps
    obtain ⟨h, hframe⟩ := hu.step_latches
    rw [List.length_take_of_le hk.le] at hrunU
    exact ⟨_, runSteps_succ_of_step hrunU hframe, hu.framing.1, by simp [hregU]⟩
  · have hread : readMessage t.cfg.lenLimit t.regMap t.rxbuf = .returns none 0 := by
      rw [hcfgT, ht.buffered]; exact readMessage_eq_wait_iff.2 hwait
    have hframe := (step_frame ht.steps).trans (exec_frame_returns ht.framing hread)
    exact ⟨_, runSteps_succ_of_step hrun hframe, ht.framing.1, rfl, ht.buffered⟩

end Machine
end Sys2Proof
end
